-- ==== Sys2Proof/Word.lean ====
section
/-! DEFINITION. The byte, the only word of this block (R10, R42: every wire field is one byte wide). -/

namespace Sys2Proof

/-- A byte, bits 7 (most significant) to 0 (R10). -/
abbrev Byte := BitVec 8

/-- `zeros(n)` of R10: n bytes of 0x00. -/
def zeros (n : Nat) : List Byte := List.replicate n 0#8

end Sys2Proof
end

