-- ==== Sys2Proof/Syntax.lean ====
section
/-! DEFINITION. The instructions: one constructor for each row of spec/opcode_table.json, and the form in which the
host hands one to the block. -/

namespace Sys2Proof

/-- A Report operand: 61 bytes when well shaped; any other length is refused when the operation runs (R63). -/
abbrev Report := List Byte

/-- The formats of one byte that the table has rows for (R60): the op word, a timing byte, the command-type byte of a
logical packet, the report id byte of a report. -/
inductive Format where
  | op
  | timing
  | cmdType
  | reportId
  deriving DecidableEq, Repr

/-- The operand fields that travel beside the op word (R13, R61, R63): one of each type, two of type u8. An operation
reads the fields of its own row of R62 and no other. DESIGN CHOICE, safe (log 7). -/
structure Operands where
  /-- The first u8 operand of R62's row. -/
  fst : Byte
  /-- The second u8 operand of R62's row. -/
  snd : Byte
  /-- The byte-sequence operand, of any length. -/
  seq : List Byte
  /-- The Report operand. -/
  report : Report
  /-- The list-of-Reports operand, of any length. -/
  reports : List Report
  deriving DecidableEq, Repr

/-- All operand fields zero: zero bytes, the empty sequence and list, a Report of 61 zero bytes. -/
def Operands.zero : Operands := ⟨0#8, 0#8, [], zeros 61, []⟩

/-- What the block decodes: a format, the byte in it and the operand fields. -/
structure Encoded where
  format : Format
  word : Byte
  operands : Operands
  deriving DecidableEq, Repr

/-- One constructor per row of spec/opcode_table.json. Operand names are those of R62. -/
inductive Instr where
  /-- RESET, 0x00 (R240). -/
  | reset
  /-- NEC_ENCODE, 0x01 (R175). -/
  | necEncode (a c : Byte)
  /-- NEC_DECODE, 0x02 (R183). -/
  | necDecode (s : List Byte)
  /-- FRAG_SPLIT, 0x03 (R102). -/
  | fragSplit (p : List Byte) (k : Byte)
  /-- RASM_PUSH, 0x04 (R109). -/
  | rasmPush (r : Report)
  /-- RASM_TAKE, 0x05 (R111). -/
  | rasmTake
  /-- RASM_CLEAR, 0x06 (R112). -/
  | rasmClear
  /-- PKT_FRAME, 0x07 (R141). -/
  | pktFrame (i t : Byte) (p : List Byte)
  /-- PKT_UNFRAME, 0x08 (R143). -/
  | pktUnframe (b : List Byte)
  /-- DATA_PACK, 0x09 (R146). -/
  | dataPack (f : Byte) (s : List Byte)
  /-- DATA_UNPACK, 0x0A (R147). -/
  | dataUnpack (p : List Byte)
  /-- SEQ_NEXT_PKT, 0x0B (R100). -/
  | seqNextPkt
  /-- SEQ_NEXT_CMD, 0x0C (R140). -/
  | seqNextCmd
  /-- RPT_PARSE, 0x0D (R104). -/
  | rptParse (r : Report)
  /-- FRAG_REASSEMBLE, 0x0E (R113). -/
  | fragReassemble (rs : List Report)
  /-- ILLEGAL, the reserved op word 0x0F (R64). -/
  | illegal
  /-- ILLEGAL_RSV, an op word with RSV not zero (R64): bits 7..4 and bits 3..0. -/
  | illegalRsv (rsv opc : BitVec 4)
  /-- TBYTE_MARK, a timing byte with bit 7 set: its seven duration bits (R65). -/
  | tbyteMark (d : BitVec 7)
  /-- TBYTE_SPACE, a timing byte with bit 7 clear: its seven duration bits (R65). -/
  | tbyteSpace (d : BitVec 7)
  /-- CT_VERSION, 0x56 (R73). -/
  | ctVersion
  /-- CT_IDLE_MODE, 0x4C (R73). -/
  | ctIdleMode
  /-- CT_SEND_MODE, 0x53 (R73). -/
  | ctSendMode
  /-- CT_RECV_MODE, 0x52 (R73). -/
  | ctRecvMode
  /-- CT_DATA, 0x44 (R73). -/
  | ctData
  /-- CT_OUTPUT, 0x4F (R73). -/
  | ctOutput
  /-- CT_CANCEL, 0x43 (R73). -/
  | ctCancel
  /-- RPTID_OUTBOUND, 0x02 (R68). -/
  | rptidOutbound
  /-- RPTID_INBOUND, 0x01 (R68). -/
  | rptidInbound
  deriving DecidableEq, Repr

end Sys2Proof
end

