-- ==== Sys2Proof/WellFormed.lean ====
section
/-! DEFINITION. Which terms of Instr stand for an encoding. Every operand is typed (R63), so the one check is that of
ILLEGAL_RSV: its RSV field is not zero (R64). -/

namespace Sys2Proof

/-- An instruction that some encoding of the spec stands for. -/
def Instr.wf : Instr → Bool
  | .illegalRsv rsv _ => rsv != 0#4
  | .reset | .necEncode _ _ | .necDecode _ | .fragSplit _ _ | .rasmPush _ | .rasmTake | .rasmClear => true
  | .pktFrame _ _ _ | .pktUnframe _ | .dataPack _ _ | .dataUnpack _ | .seqNextPkt | .seqNextCmd => true
  | .rptParse _ | .fragReassemble _ | .illegal | .tbyteMark _ | .tbyteSpace _ => true
  | .ctVersion | .ctIdleMode | .ctSendMode | .ctRecvMode | .ctData | .ctOutput | .ctCancel => true
  | .rptidOutbound | .rptidInbound => true

end Sys2Proof
end

