-- ==== Sys2Proof/Decode.lean ====
section
/-! DEFINITION. The decoder of op words (R61, R62, R64) and of the one-byte wire formats (R65, R68, R73), total on any
byte, and after it the encoder, written from the same tables. -/

namespace Sys2Proof

/-- Why a byte of a wire format is no row of the table. An op word is never rejected: R64 gives every illegal one a
meaning. -/
inductive Reject where
  /-- A command-type byte outside the seven of R73 (R74). -/
  | unknownCmdType (b : Byte)
  /-- A report id byte other than 0x01 and 0x02 (R68). -/
  | unassignedReportId (b : Byte)
  deriving DecidableEq, Repr

/-- The op word, by exact match on the whole byte (R61, R62); 0x0F and every byte with RSV not zero are illegal (R64). -/
def decodeOp (w : Byte) (o : Operands) : Instr :=
  match w.toNat with
  | 0x00 => .reset
  | 0x01 => .necEncode o.fst o.snd
  | 0x02 => .necDecode o.seq
  | 0x03 => .fragSplit o.seq o.fst
  | 0x04 => .rasmPush o.report
  | 0x05 => .rasmTake
  | 0x06 => .rasmClear
  | 0x07 => .pktFrame o.fst o.snd o.seq
  | 0x08 => .pktUnframe o.seq
  | 0x09 => .dataPack o.fst o.seq
  | 0x0A => .dataUnpack o.seq
  | 0x0B => .seqNextPkt
  | 0x0C => .seqNextCmd
  | 0x0D => .rptParse o.report
  | 0x0E => .fragReassemble o.reports
  | 0x0F => .illegal
  | _ => .illegalRsv (w.extractLsb' 4 4) (w.extractLsb' 0 4)

/-- A timing byte (R65): bit 7 is the polarity, bits 6..0 the duration; all 256 values are legal (R66). -/
def decodeTiming (w : Byte) : Instr :=
  if w.getLsbD 7 then .tbyteMark (w.extractLsb' 0 7) else .tbyteSpace (w.extractLsb' 0 7)

/-- A command-type byte (R73). -/
def decodeCmdType (w : Byte) : Except Reject Instr :=
  match w.toNat with
  | 0x56 => .ok .ctVersion
  | 0x4C => .ok .ctIdleMode
  | 0x53 => .ok .ctSendMode
  | 0x52 => .ok .ctRecvMode
  | 0x44 => .ok .ctData
  | 0x4F => .ok .ctOutput
  | 0x43 => .ok .ctCancel
  | _ => .error (.unknownCmdType w)

/-- A report id byte (R68). -/
def decodeReportId (w : Byte) : Except Reject Instr :=
  match w.toNat with
  | 0x02 => .ok .rptidOutbound
  | 0x01 => .ok .rptidInbound
  | _ => .error (.unassignedReportId w)

/-- The decoder: each format by its own table. -/
def decode (e : Encoded) : Except Reject Instr :=
  match e.format with
  | .op => .ok (decodeOp e.word e.operands)
  | .timing => .ok (decodeTiming e.word)
  | .cmdType => decodeCmdType e.word
  | .reportId => decodeReportId e.word

/-- The instruction the decoder reads from an op word numbered as the table numbers it, with operand fields of zeros.
The table gives every row eight bits, and only the op word selects an operation (R61), so the byte is read in format OP
(log 6). -/
def decodeTableWord (nbits w : Nat) : Option Instr :=
  if nbits ≤ 8 ∧ w < 2 ^ nbits then (decode ⟨.op, BitVec.ofNat 8 w, .zero⟩).toOption else none

/-- An op word with its operand fields. -/
def opWord (w : Byte) (o : Operands := .zero) : Encoded := ⟨.op, w, o⟩

/-- A byte of another format; it has no operands. -/
def wireByte (f : Format) (w : Byte) : Encoded := ⟨f, w, .zero⟩

/-- The encoder (R61, R62, R64, R65, R68, R73). Fields an operation does not read are zero. -/
def encode : Instr → Encoded
  | .reset => opWord 0x00#8
  | .necEncode a c => opWord 0x01#8 { Operands.zero with fst := a, snd := c }
  | .necDecode s => opWord 0x02#8 { Operands.zero with seq := s }
  | .fragSplit p k => opWord 0x03#8 { Operands.zero with seq := p, fst := k }
  | .rasmPush r => opWord 0x04#8 { Operands.zero with report := r }
  | .rasmTake => opWord 0x05#8
  | .rasmClear => opWord 0x06#8
  | .pktFrame i t p => opWord 0x07#8 { Operands.zero with fst := i, snd := t, seq := p }
  | .pktUnframe b => opWord 0x08#8 { Operands.zero with seq := b }
  | .dataPack f s => opWord 0x09#8 { Operands.zero with fst := f, seq := s }
  | .dataUnpack p => opWord 0x0A#8 { Operands.zero with seq := p }
  | .seqNextPkt => opWord 0x0B#8
  | .seqNextCmd => opWord 0x0C#8
  | .rptParse r => opWord 0x0D#8 { Operands.zero with report := r }
  | .fragReassemble rs => opWord 0x0E#8 { Operands.zero with reports := rs }
  | .illegal => opWord 0x0F#8
  | .illegalRsv rsv opc => opWord (rsv ++ opc)
  | .tbyteMark d => wireByte .timing (1#1 ++ d)
  | .tbyteSpace d => wireByte .timing (0#1 ++ d)
  | .ctVersion => wireByte .cmdType 0x56#8
  | .ctIdleMode => wireByte .cmdType 0x4C#8
  | .ctSendMode => wireByte .cmdType 0x53#8
  | .ctRecvMode => wireByte .cmdType 0x52#8
  | .ctData => wireByte .cmdType 0x44#8
  | .ctOutput => wireByte .cmdType 0x4F#8
  | .ctCancel => wireByte .cmdType 0x43#8
  | .rptidOutbound => wireByte .reportId 0x02#8
  | .rptidInbound => wireByte .reportId 0x01#8

/-- The assembler mnemonics of the operations (R62, R80); the illegal op words and the wire bytes have none. -/
def asmMnemonic : Instr → Option String
  | .reset => some "reset"
  | .necEncode _ _ => some "nec.enc"
  | .necDecode _ => some "nec.dec"
  | .fragSplit _ _ => some "frag.split"
  | .rasmPush _ => some "rasm.push"
  | .rasmTake => some "rasm.take"
  | .rasmClear => some "rasm.clear"
  | .pktFrame _ _ _ => some "pkt.frame"
  | .pktUnframe _ => some "pkt.unframe"
  | .dataPack _ _ => some "data.pack"
  | .dataUnpack _ => some "data.unpack"
  | .seqNextPkt => some "seq.pkt"
  | .seqNextCmd => some "seq.cmd"
  | .rptParse _ => some "rpt.parse"
  | .fragReassemble _ => some "frag.reasm"
  | .illegal | .illegalRsv _ _ | .tbyteMark _ | .tbyteSpace _ => none
  | .ctVersion | .ctIdleMode | .ctSendMode | .ctRecvMode | .ctData | .ctOutput | .ctCancel => none
  | .rptidOutbound | .rptidInbound => none

end Sys2Proof
end

