-- ==== Sys2Proof/Config.lean ====
section
/-! DEFINITION. The fixed parameters of R6 to R9 and the parameters the spec leaves to the build (R8, R147).
The one free value is what RBUF holds where nothing has written it (U4, U9; log 2). -/

namespace Sys2Proof.Config

/-- `TICK_US` (R6): microseconds per tick. -/
abbrev tickUs : Nat := 16

/-- `UNIT_MAX` (R6): ticks one timing byte can carry. -/
abbrev unitMax : Nat := 127

/-- `REPORT_LEN` (R6). -/
abbrev reportLen : Nat := 61

/-- `FRAG_PAYLOAD` (R6). -/
abbrev fragPayload : Nat := 56

/-- `FRAG_HDR_LEN` (R6). -/
abbrev fragHdrLen : Nat := 5

/-- The constant by which the fragment size exceeds the payload length (R69). -/
abbrev fragSizeBias : Nat := 3

/-- `MAX_FRAGS` (R6); also the top of `PKT_IDX_RANGE`. -/
abbrev maxFrags : Nat := 15

/-- `MAX_PACKET` (R6): 15 fragments of 56 bytes, the size of RBUF (R40). -/
abbrev maxPacket : Nat := 840

/-- The top of `CMD_ID_RANGE` (R6). -/
abbrev maxCmdId : Nat := 127

/-- `FRAME_MIN` (R6). -/
abbrev frameMin : Nat := 6

/-- `NEC_BITS` (R6). -/
abbrev necBits : Nat := 32

/-! Nominal durations in half-microseconds (R171). -/

abbrev leaderMark : Nat := 18000
abbrev leaderSpace : Nat := 9000
abbrev repeatSpace : Nat := 4500
abbrev bitMark : Nat := 1125
abbrev zeroSpace : Nat := 1125
abbrev oneSpace : Nat := 3375
abbrev stopMark : Nat := 1125

/-- Half-microseconds in one tick: 16 µs (R172). -/
abbrev husPerTick : Nat := 32

/-- A tolerance, a rational number (R8). -/
structure Tolerance where
  num : Nat
  den : Nat
  deriving DecidableEq, Repr

/-- `TOL` = 1/4, the value R8 sets; the decoder takes it as an argument with this default. -/
abbrev tol : Tolerance := ⟨1, 4⟩

/-- `INBOUND_DATA_HAS_FREQ` (R147, U6): whether inbound DATA starts with a frequency index. -/
abbrev inboundDataHasFreq : Bool := true

/-- FREE VALUE (U4, U9: `any value`; log 2): the byte RBUF holds at an offset that nothing has written, for each stretch
of unspecified contents (era), a new one at every RESET. It has no body, so nothing can be proved of its value. -/
opaque rbufFree (era off : Nat) : Byte

/-! DeviceState values (R77): named for a model of the host; the block neither produces nor reads them. -/

abbrev deviceIdle : Byte := 3#8
abbrev deviceSend : Byte := 9#8
abbrev deviceRecv : Byte := 19#8

end Sys2Proof.Config
end

