-- ==== Sys2Proof/Machine/State.lean ====
section
/-! DEFINITION. The state of the block (R20), the results its operations return (R210, R211), the host's pending
operations, and the reasons a step can stop. All of it is plain data. -/

namespace Sys2Proof.Machine

/-- The values of `RASM_ST` (R21). -/
inductive RasmSt where
  /-- No packet is in progress. -/
  | idle
  /-- Fragments 1..`RASM_NEXT`−1 of a packet have been accepted. -/
  | active
  /-- A whole packet is held and waits for RASM_TAKE. -/
  | complete
  /-- A FragmentationError is latched. -/
  | error
  deriving DecidableEq, Repr

/-- What RBUF (R40) has been given by writes: each byte with its offset, offsets strictly rising. An offset that is not
listed holds a free value (R27, U4; log 2). -/
abbrev Memory := List Host.Cell

/-- The reassembly buffer registers (R20 to R27). -/
structure Rasm where
  /-- `RASM_ST` (R21). -/
  st : RasmSt
  /-- `RASM_PKT` (R22). -/
  pkt : Byte
  /-- `RASM_CNT` (R23). -/
  cnt : BitVec 4
  /-- `RASM_NEXT` (R24). -/
  next : BitVec 5
  /-- `RASM_LEN` (R25). -/
  len : BitVec 10
  /-- `RASM_ERR` (R26). -/
  err : Byte
  /-- `RBUF` (R27): the bytes written since the last RESET. -/
  buf : Memory
  /-- The model's own field: which unspecified contents RBUF has where nothing has written it (R35, R240; log 2). -/
  era : Nat
  deriving DecidableEq, Repr

/-- The reassembly registers at their reset values (R35). Every byte of RBUF is a free value (U9); era 0 is a DESIGN
CHOICE (log 2). -/
def Rasm.reset : Rasm := ⟨.idle, 0#8, 0#4, 0#5, 0#10, 0#8, [], 0⟩

/-- The error kinds of R211. -/
inductive ErrorKind where
  | invalidPayload
  | illegalOp
  | badArgument
  | notReady
  | busy
  | locked
  /-- FragmentationError.BadHeader. -/
  | badHeader
  /-- FragmentationError.PacketIndexMismatch. -/
  | packetIndexMismatch
  /-- FragmentationError.CountMismatch. -/
  | countMismatch
  /-- FragmentationError.DuplicateIndex. -/
  | duplicateIndex
  /-- FragmentationError.IndexGap. -/
  | indexGap
  /-- FramingError.Short. -/
  | short
  /-- FramingError.BadStart. -/
  | badStart
  /-- FramingError.BadEnd. -/
  | badEnd
  /-- FramingError.NoFreqIndex. -/
  | noFreqIndex
  /-- DecodeError.InvalidLeader. -/
  | invalidLeader
  /-- DecodeError.Truncated. -/
  | truncated
  /-- DecodeError.ChecksumMismatch. -/
  | checksumMismatch
  deriving DecidableEq, Repr

/-- The info field of an error (R211): a number, two marker bytes, or the four bytes of a frame. -/
inductive Info where
  | num (n : Nat)
  | two (x y : Byte)
  | four (b0 b1 b2 b3 : Byte)
  deriving DecidableEq, Repr

/-- The command types of R148. -/
inductive CmdType where
  | version
  | idleMode
  | sendMode
  | recvMode
  | data
  | output
  | cancel
  | unknown (b : Byte)
  deriving DecidableEq, Repr

/-- The direction a report id byte marks (R68). -/
inductive Direction where
  | outbound
  | inbound
  | unassigned (b : Byte)
  deriving DecidableEq, Repr

/-- RPT_PARSE's result (R104). -/
structure Hdr where
  reportId : Byte
  fragSize : Byte
  packetIdx : Byte
  fragCount : Byte
  fragIdx : Byte
  ok : Bool
  payload : List Byte
  deriving DecidableEq, Repr

/-- The values an operation returns with Ok (R62), and the readings of a byte of a wire format (log 6). -/
inductive Value where
  /-- `()`. -/
  | unit
  /-- A u8. -/
  | u8 (v : Byte)
  /-- A byte sequence. -/
  | seq (bs : List Byte)
  /-- NEC_DECODE's `Frame(a, c)`. -/
  | frame (a c : Byte)
  /-- NEC_DECODE's `Repeat`. -/
  | repeatCode
  /-- A list of Reports. -/
  | reports (rs : List Report)
  /-- RASM_PUSH's `More(next)`. -/
  | more (next : Nat)
  /-- RASM_PUSH's `Complete(len)`. -/
  | complete (len : Nat)
  /-- PKT_UNFRAME's `(i, t, p)`. -/
  | packet (i t : Byte) (p : List Byte)
  /-- DATA_UNPACK's `(f, s)`. -/
  | data (f : Byte) (s : List Byte)
  /-- RPT_PARSE's header. -/
  | hdr (h : Hdr)
  /-- The reading of a timing byte (R65): whether it is a mark, its ticks, its microseconds. -/
  | timing (mark : Bool) (ticks micros : Nat)
  /-- The reading of a command-type byte (R148). -/
  | cmdType (t : CmdType)
  /-- The reading of a report id byte (R68). -/
  | direction (d : Direction)
  deriving DecidableEq, Repr

/-- The one result an operation ends with (R210). -/
inductive Result where
  | ok (v : Value)
  | err (e : ErrorKind) (info : Info)
  deriving DecidableEq, Repr

/-- One operation as the host issues it (R5, R13), with what the host's program says of it. -/
structure Issue where
  /-- The op word and its operand fields. -/
  code : Encoded
  /-- The host issues it before the previous operation has returned its result (R220): a host fault. -/
  overlaps : Bool
  /-- An error result of this operation ends the host's program (R80, R252): nothing more is issued after it. -/
  stopOnError : Bool
  deriving DecidableEq, Repr

/-- The state: the registers of R20, the results returned so far (R252), and the host's pending operations (R31). -/
structure State where
  /-- `RASM_ST` to `RBUF` (R20). -/
  rasm : Rasm
  /-- `PKT_SEQ` (R28). -/
  pktSeq : BitVec 4
  /-- `CMD_SEQ` (R29). -/
  cmdSeq : BitVec 7
  /-- The results returned so far, oldest first (R252). No operation reads them. -/
  results : List Result
  /-- The model's own field: the operations the host has yet to issue, next one first (log 1). -/
  program : List Issue
  deriving DecidableEq, Repr

/-- The block right after reset or power-on (R35, R241). DESIGN CHOICE, log 1, 2 and 3: no host program, era 0 of
RBUF's free contents, no result. -/
def State.reset : State := ⟨Rasm.reset, 0#4, 0#7, [], []⟩

/-- What stops the machine. No error of the spec does: those are results (R210). -/
inductive Fault where
  /-- An access to RBUF beyond offset 839, which does not exist (R40, R45). RASM_PUSH and RASM_TAKE raise it, and only in
  a state that no run reaches. Safe: the machine stops (log 9). -/
  | rbufRange
  deriving DecidableEq, Repr

/-- What the model gives no meaning. -/
inductive Refusal where
  /-- An instruction that has no meaning yet. No arm of exec uses it. Safe. -/
  | notModelled (mnemonic : String)
  /-- step: the host issued an operation before the previous one returned (R220: "A model should refuse such a
  schedule"). Safe (log 5). -/
  | concurrentIssue
  deriving DecidableEq, Repr

end Sys2Proof.Machine
end

