-- ==== Sys2Proof/Machine/Flags.lean ====
section
/-! DEFINITION. The block has no flags (R32). What a later operation can see of an earlier one is `RASM_ST` and
`RASM_ERR`; their numeric codes stand here (R21, R211). -/

namespace Sys2Proof.Machine

/-- The code of `RASM_ST` (R21), the info of NotReady (R111). -/
def RasmSt.code : RasmSt → Nat
  | .idle => 0
  | .active => 1
  | .complete => 2
  | .error => 3

/-- The error codes (R211). -/
def ErrorKind.code : ErrorKind → Byte
  | .invalidPayload => 0x01#8
  | .illegalOp => 0x02#8
  | .badArgument => 0x03#8
  | .notReady => 0x04#8
  | .busy => 0x05#8
  | .locked => 0x06#8
  | .badHeader => 0x10#8
  | .packetIndexMismatch => 0x11#8
  | .countMismatch => 0x12#8
  | .duplicateIndex => 0x13#8
  | .indexGap => 0x14#8
  | .short => 0x20#8
  | .badStart => 0x21#8
  | .badEnd => 0x22#8
  | .noFreqIndex => 0x23#8
  | .invalidLeader => 0x30#8
  | .truncated => 0x31#8
  | .checksumMismatch => 0x32#8

/-- The FragmentationErrors (R211, R213). -/
def ErrorKind.isFragmentation : ErrorKind → Bool
  | .badHeader | .packetIndexMismatch | .countMismatch | .duplicateIndex | .indexGap => true
  | .invalidPayload | .illegalOp | .badArgument | .notReady | .busy | .locked => false
  | .short | .badStart | .badEnd | .noFreqIndex | .invalidLeader | .truncated | .checksumMismatch => false

/-- Whether a result is an error. -/
def Result.isErr : Result → Bool
  | .ok _ => false
  | .err _ _ => true

end Sys2Proof.Machine
end

