-- ==== Sys2Proof/Machine/Operands.lean ====
section
/-! DEFINITION. Operand forms: the fields of a report (R67, R105, R106), of a timing byte (R65, R172 to R174), of a
logical packet (R72, R73, R148) and of a report id (R68). -/

namespace Sys2Proof.Machine

/-- `s[i]` of R10, used only where i is within s. -/
def byteAt (s : List Byte) (i : Nat) : Byte := s.getD i 0#8

/-- `s[i:j]` of R10. -/
def slice (s : List Byte) (i j : Nat) : List Byte := (s.drop i).take (j - i)

/-! Reports (R67). -/

def reportId (r : Report) : Byte := byteAt r 0
def fragSize (r : Report) : Byte := byteAt r 1
def packetIdx (r : Report) : Byte := byteAt r 2
def fragCount (r : Report) : Byte := byteAt r 3
def fragIdx (r : Report) : Byte := byteAt r 4

/-- A Report operand of the right shape: exactly 61 bytes (R63). -/
def reportShaped (r : Report) : Bool := r.length == Config.reportLen

/-- `hdr_ok` (R105). -/
def hdrOk (r : Report) : Bool :=
  decide (3 ≤ (fragSize r).toNat ∧ (fragSize r).toNat ≤ 59 ∧
    1 ≤ (fragCount r).toNat ∧ (fragCount r).toNat ≤ Config.maxFrags ∧
    1 ≤ (fragIdx r).toNat ∧ (fragIdx r).toNat ≤ (fragCount r).toNat)

/-- The payload length a valid header describes: fragSize − 3 (R69). -/
def payloadLen (r : Report) : Nat := (fragSize r).toNat - Config.fragSizeBias

/-- The payload of a report with a valid header (R106); the padding after it is ignored (R107). -/
def payload (r : Report) : List Byte := slice r Config.fragHdrLen (Config.fragHdrLen + payloadLen r)

/-- The fragments `split` needs for n bytes: max(1, ceil(n/56)) (R102). -/
def fragsFor (n : Nat) : Nat := max 1 ((n + 55) / Config.fragPayload)

/-- Chunk j of p, 1-based (R102). -/
def chunk (p : List Byte) (j : Nat) : List Byte :=
  slice p (Config.fragPayload * (j - 1)) (min (Config.fragPayload * j) p.length)

/-- The report that carries chunk c as fragment j of n of packet k, zero-padded to 61 bytes (R102, R69). -/
def mkReport (k : Byte) (n j : Nat) (c : List Byte) : Report :=
  [0x02#8, BitVec.ofNat 8 (c.length + Config.fragSizeBias), k, BitVec.ofNat 8 n, BitVec.ofNat 8 j]
    ++ c ++ zeros (Config.fragPayload - c.length)

/-- The direction a report id byte marks (R68). -/
def directionOf (b : Byte) : Direction :=
  match b.toNat with
  | 0x02 => .outbound
  | 0x01 => .inbound
  | _ => .unassigned b

/-! Timing bytes (R65). -/

/-- `P = u[7]`: true for a mark. -/
def polarity (u : Byte) : Bool := u.getLsbD 7

/-- `D = u[6:0]`, in ticks. -/
def duration (u : Byte) : Nat := (u.extractLsb' 0 7).toNat

/-- `unit(p, t)` for t in 0..127 (R173). -/
def timingUnit (mark : Bool) (t : Nat) : Byte := (if mark then 0x80#8 else 0x00#8) ||| BitVec.ofNat 8 t

/-- `units(p, t)`: the full units first, the remainder last, no zero unit (R174). -/
def timingUnits (mark : Bool) (t : Nat) : List Byte :=
  List.replicate (t / Config.unitMax) (timingUnit mark Config.unitMax)
    ++ (if t % Config.unitMax ≠ 0 then [timingUnit mark (t % Config.unitMax)] else [])

/-- `ticks(N)`: half-microseconds to the nearest tick, half up (R172). -/
def ticksOf (hus : Nat) : Nat := (hus + 16) / Config.husPerTick

/-- The reading of a timing byte: polarity, ticks, microseconds (R65). -/
def readTiming (u : Byte) : Value := .timing (polarity u) (duration u) (Config.tickUs * duration u)

/-! Logical packets (R71 to R73). -/

/-- The start marker (R72). -/
def startMarker : List Byte := [0x54#8, 0x53#8]

/-- The end marker (R72). -/
def endMarker : List Byte := [0x4E#8, 0x45#8]

/-- `cmdTypeOf` (R148), total. -/
def cmdTypeOf (b : Byte) : CmdType :=
  match b.toNat with
  | 0x56 => .version
  | 0x4C => .idleMode
  | 0x53 => .sendMode
  | 0x52 => .recvMode
  | 0x44 => .data
  | 0x4F => .output
  | 0x43 => .cancel
  | _ => .unknown b

/-- Whether a byte is one of the seven command types (R73). -/
def knownCmdType (b : Byte) : Bool :=
  [0x56#8, 0x4C#8, 0x53#8, 0x52#8, 0x44#8, 0x4F#8, 0x43#8].contains b

end Sys2Proof.Machine
end

