-- ==== Sys2Proof/Machine/Ops.lean ====
section
/-! DEFINITION. The named operations over RBUF, the reassembly registers, the results and the host's program. -/

namespace Sys2Proof.Machine

/-! ## RBUF (R12, R40, R45) -/

/-- The byte written at an offset, if one was. -/
def Memory.written (a : Nat) : Memory → Option Byte
  | [] => none
  | (b, v) :: rest => if a = b then some v else Memory.written a rest

/-- What an offset that is not listed reads as: the free value (R27, R35, U4; log 2). -/
def Memory.unlisted (era a : Nat) : Byte := Config.rbufFree era a

/-- The byte RBUF holds at an offset: the one written, else the free value. -/
def Memory.read (era a : Nat) (m : Memory) : Byte := (m.written a).getD (Memory.unlisted era a)

/-- Write one byte, keeping the offsets strictly rising. -/
def Memory.write (a : Nat) (v : Byte) : Memory → Memory
  | [] => [(a, v)]
  | (b, w) :: rest =>
    if a < b then (a, v) :: (b, w) :: rest
    else if a = b then (a, v) :: rest
    else (b, w) :: Memory.write a v rest

/-- Write consecutive bytes. -/
def Memory.writeAll (off : Nat) : List Byte → Memory → Memory
  | [], m => m
  | v :: vs, m => Memory.writeAll (off + 1) vs (m.write off v)

/-- Read n consecutive bytes. -/
def Memory.readAll (era off : Nat) : Nat → Memory → List Byte
  | 0, _ => []
  | n + 1, m => m.read era off :: Memory.readAll era (off + 1) n m

/-- The canonical form: offsets strictly rising. An unlisted offset is one that nothing has written; its free value has no
known value an entry could be compared with (log 2). -/
abbrev Memory.wf (m : Memory) : Prop := m.Pairwise (fun x y => x.1 < y.1)

/-- `MemWrite(RBUF, off, n, v)` (R12, R45). -/
def memWrite (off : Nat) (v : List Byte) (m : Memory) : Except Fault Memory :=
  if off + v.length ≤ Config.maxPacket then .ok (m.writeAll off v) else .error .rbufRange

/-- `MemRead(RBUF, off, n)` (R12, R46). -/
def memRead (era off n : Nat) (m : Memory) : Except Fault (List Byte) :=
  if off + n ≤ Config.maxPacket then .ok (m.readAll era off n) else .error .rbufRange

/-! ## The reassembly registers (R109 to R112) -/

/-- The byte of RBUF at an offset. -/
def Rasm.byte (a : Nat) (g : Rasm) : Byte := g.buf.read g.era a

/-- RESET's effect (R240): the registers at their reset values, and RBUF with new unspecified contents (log 2). -/
def Rasm.restart (g : Rasm) : Rasm := { Rasm.reset with era := g.era + 1 }

/-- The four progress registers set to 0 (R110 to R112, R240). -/
def Rasm.noProgress (g : Rasm) : Rasm := { g with pkt := 0#8, cnt := 0#4, next := 0#5, len := 0#10 }

/-- The latch (R110): the only state an error writes. RBUF keeps its hidden bytes. -/
def Rasm.latch (e : ErrorKind) (g : Rasm) : Rasm := { g.noProgress with st := .error, err := e.code }

/-- RASM_CLEAR's effect (R112). RBUF keeps its hidden bytes (R34). -/
def Rasm.clear (g : Rasm) : Rasm := { g.noProgress with st := .idle, err := 0#8 }

/-- RASM_TAKE's effect on the registers (R111). It does not write `RASM_ERR` (R26). -/
def Rasm.taken (g : Rasm) : Rasm := { g.noProgress with st := .idle }

/-- The FragmentationError a report of 61 bytes meets in IDLE or ACTIVE, in the order of R109. -/
def Rasm.violation (r : Report) (g : Rasm) : Option ErrorKind :=
  if hdrOk r = false then some .badHeader
  else if g.st = .idle then
    if (fragIdx r).toNat ≠ 1 then some .indexGap else none
  else if packetIdx r ≠ g.pkt then some .packetIndexMismatch
  else if (fragCount r).toNat ≠ g.cnt.toNat then some .countMismatch
  else if (fragIdx r).toNat < g.next.toNat then some .duplicateIndex
  else if g.next.toNat < (fragIdx r).toNat then some .indexGap
  else none

/-- The offset a report's payload is stored at: 0 in IDLE, `RASM_LEN` in ACTIVE (R109, R49). -/
def Rasm.storeAt (g : Rasm) : Nat := if g.st = .idle then 0 else g.len.toNat

/-- A report that meets no violation is stored and counted (R109). -/
def Rasm.accept (r : Report) (g : Rasm) : Except Fault (Rasm × Result) :=
  let cnt : BitVec 4 := if g.st = .idle then BitVec.ofNat 4 (fragCount r).toNat else g.cnt
  let pkt : Byte := if g.st = .idle then packetIdx r else g.pkt
  let len := g.storeAt + payloadLen r
  let last : Bool := (fragIdx r).toNat == cnt.toNat
  match memWrite g.storeAt (payload r) g.buf with
  | .error f => .error f
  | .ok buf =>
    .ok ({ g with
            st := if last then .complete else .active
            pkt := pkt
            cnt := cnt
            next := BitVec.ofNat 5 ((fragIdx r).toNat + 1)
            len := BitVec.ofNat 10 len
            buf := buf },
      .ok (if last then .complete len else .more ((fragIdx r).toNat + 1)))

/-- RASM_PUSH over the reassembly registers (R109), used by RASM_PUSH on the block's own and by FRAG_REASSEMBLE on a
local copy (R113). -/
def Rasm.push (r : Report) (g : Rasm) : Except Fault (Rasm × Result) :=
  if reportShaped r = false then .ok (g, .err .badArgument (.num r.length))
  else match g.st with
  | .error => .ok (g, .err .locked (.num g.err.toNat))
  | .complete => .ok (g, .err .busy (.num g.len.toNat))
  | .idle | .active =>
    match g.violation r with
    | some e => .ok (g.latch e, .err e (.num (fragIdx r).toNat))
    | none => g.accept r

/-- RASM_TAKE over the reassembly registers (R111). -/
def Rasm.take (g : Rasm) : Except Fault (Rasm × Result) :=
  if g.st = .complete then
    match memRead g.era 0 g.len.toNat g.buf with
    | .ok b => .ok (g.taken, .ok (.seq b))
    | .error f => .error f
  else .ok (g, .err .notReady (.num g.st.code))

/-! ## Results (R210) -/

/-- An operation ends with its one result, which the host receives (R210). -/
def State.answer (r : Result) (s : State) : State := { s with results := s.results ++ [r] }

/-- An operation that writes no register ends with a result. -/
def State.reply (r : Result) (s : State) : Host.Outcome State Fault Refusal := .next (s.answer r)

/-- `raise E(info)` (R12): the error result and no state write. There is no trap to take (R216). -/
def State.raise (e : ErrorKind) (info : Info) (s : State) : Host.Outcome State Fault Refusal :=
  s.reply (.err e info)

/-- An operation over the reassembly registers ends: its writes take effect together, with its result (R12). -/
def State.commit (x : Except Fault (Rasm × Result)) (s : State) : Host.Outcome State Fault Refusal :=
  match x with
  | .ok (g, r) => .next ({ s with rasm := g }.answer r)
  | .error f => .fault f

/-! ## The host's program (R31, R80, R252) -/

/-- The next operation the host issues, and the state without it. -/
def State.fetch (s : State) : Option (Issue × State) :=
  match s.program with
  | [] => none
  | i :: rest => some (i, { s with program := rest })

/-- After an operation whose error ends the program, an error result leaves no operation to issue (R80, R252), but for
those the host had issued before the error was returned, which step refuses (R220; log 5). -/
def State.endOnError (i : Issue) (s : State) : State :=
  if i.stopOnError && (s.results.getLast?.any Result.isErr) then { s with program := s.program.takeWhile Issue.overlaps } else s

/-- The host's program after an operation's outcome. -/
def closeIssue (i : Issue) : Host.Outcome State Fault Refusal → Host.Outcome State Fault Refusal
  | .next s => .next (s.endOnError i)
  | .fault f => .fault f
  | .refused r => .refused r

/-- The reading of a wire byte that is no row of the table: an unknown command type (R74, R148), an unassigned report id
(R68). -/
def rejectReading : Reject → Value
  | .unknownCmdType b => .cmdType (cmdTypeOf b)
  | .unassignedReportId b => .direction (directionOf b)

/-- The issue the host makes to run a table word: in series, its error handled by the host. -/
def tableIssue (nbits w : Nat) : Issue := ⟨⟨.op, BitVec.ofNat 8 (w % 2 ^ nbits), .zero⟩, false, false⟩

/-- The next state of an outcome, where there is one. -/
def nextOf : Host.Outcome State Fault Refusal → Option State
  | .next s => some s
  | .fault _ => none
  | .refused _ => none

end Sys2Proof.Machine
end

