-- ==== Sys2Proof/Machine/Fragment.lean ====
section
/-! DEFINITION. Fragmentation, the report parser and the reassembly buffer (40_fragment.md). -/

namespace Sys2Proof.Machine

/-- The value after v on a counter over 1..top (R100, R140). -/
def seqNext (top v : Nat) : Nat := v % top + 1

/-- SEQ_NEXT_PKT (R100). -/
def execSeqNextPkt (s : State) : Host.Outcome State Fault Refusal :=
  let v := seqNext Config.maxFrags s.pktSeq.toNat
  .next ({ s with pktSeq := BitVec.ofNat 4 v }.answer (.ok (.u8 (BitVec.ofNat 8 v))))

/-- The reports of a packet that fits: fragments 1..n (R102). -/
def splitReports (p : List Byte) (k : Byte) : List Report :=
  (List.range (fragsFor p.length)).map (fun j => mkReport k (fragsFor p.length) (j + 1) (chunk p (j + 1)))

/-- FRAG_SPLIT (R102); the check of k comes first. -/
def execFragSplit (p : List Byte) (k : Byte) (s : State) : Host.Outcome State Fault Refusal :=
  if k.toNat < 1 ∨ k.toNat > Config.maxFrags then s.raise .badArgument (.num k.toNat)
  else if fragsFor p.length > Config.maxFrags then s.raise .invalidPayload (.num (fragsFor p.length))
  else s.reply (.ok (.reports (splitReports p k)))

/-- A report's header as RPT_PARSE returns it (R104). -/
def parseReport (r : Report) : Hdr :=
  { reportId := reportId r, fragSize := fragSize r, packetIdx := packetIdx r, fragCount := fragCount r,
    fragIdx := fragIdx r, ok := hdrOk r, payload := if hdrOk r then payload r else [] }

/-- RPT_PARSE (R104). -/
def execRptParse (r : Report) (s : State) : Host.Outcome State Fault Refusal :=
  if reportShaped r = false then s.raise .badArgument (.num r.length)
  else s.reply (.ok (.hdr (parseReport r)))

/-- RASM_PUSH (R109). -/
def execRasmPush (r : Report) (s : State) : Host.Outcome State Fault Refusal :=
  s.commit (s.rasm.push r)

/-- RASM_TAKE (R111). -/
def execRasmTake (s : State) : Host.Outcome State Fault Refusal :=
  s.commit s.rasm.take

/-- RASM_CLEAR (R112). -/
def execRasmClear (s : State) : Host.Outcome State Fault Refusal :=
  .next ({ s with rasm := s.rasm.clear }.answer (.ok .unit))

/-- The loop of R113 over local registers: the registers after the last push, and the error that ended the loop. -/
def pushAll : List Report → Rasm → Except Fault (Rasm × Option Result)
  | [], g => .ok (g, none)
  | r :: rs, g =>
    if g.st = .complete then .ok (g, some (.err .countMismatch (.num (fragIdx r).toNat)))
    else
      match g.push r with
      | .error f => .error f
      | .ok (g', .err e info) => .ok (g', some (.err e info))
      | .ok (g', .ok _) => pushAll rs g'

/-- What the local registers hold when every report was accepted (R113). -/
def batchEnd (g : Rasm) : Except Fault Result :=
  if g.st = .complete then
    match memRead g.era 0 g.len.toNat g.buf with
    | .ok b => .ok (.ok (.seq b))
    | .error f => .error f
  else .ok (.err .countMismatch (.num g.next.toNat))

/-- FRAG_REASSEMBLE's result (R113). The faults of RBUF cannot arise here. -/
def batchResult (rs : List Report) : Except Fault Result :=
  match rs.findIdx? (fun r => !reportShaped r) with
  | some j => .ok (.err .badArgument (.num (j + 1)))
  | none =>
    if rs.isEmpty then .ok (.err .countMismatch (.num 1))
    else
      match pushAll rs Rasm.reset with
      | .error f => .error f
      | .ok (_, some e) => .ok e
      | .ok (g, none) => batchEnd g

/-- FRAG_REASSEMBLE (R113): the block's own registers are neither read nor written. -/
def execFragReassemble (rs : List Report) (s : State) : Host.Outcome State Fault Refusal :=
  match batchResult rs with
  | .ok r => s.reply r
  | .error f => .fault f

end Sys2Proof.Machine
end

