-- ==== Sys2Proof/Machine/Framer.lean ====
section
/-! DEFINITION. The packet framer and parser (41_framer.md). -/

namespace Sys2Proof.Machine

/-- SEQ_NEXT_CMD (R140). -/
def execSeqNextCmd (s : State) : Host.Outcome State Fault Refusal :=
  let v := seqNext Config.maxCmdId s.cmdSeq.toNat
  .next ({ s with cmdSeq := BitVec.ofNat 7 v }.answer (.ok (.u8 (BitVec.ofNat 8 v))))

/-- The bytes of a logical packet (R71, R141). -/
def framePacket (i t : Byte) (p : List Byte) : List Byte := startMarker ++ [i, t] ++ p ++ endMarker

/-- PKT_FRAME (R141, R142). -/
def execPktFrame (i t : Byte) (p : List Byte) (s : State) : Host.Outcome State Fault Refusal :=
  if i.toNat < 1 ∨ i.toNat > Config.maxCmdId then s.raise .badArgument (.num i.toNat)
  else if knownCmdType t = false then s.raise .badArgument (.num t.toNat)
  else s.reply (.ok (.seq (framePacket i t p)))

/-- PKT_UNFRAME's result (R143): the length first, then the start marker, then the end marker (R144). -/
def unframe (b : List Byte) : Result :=
  let n := b.length
  if n < Config.frameMin then .err .short (.num n)
  else if slice b 0 2 ≠ startMarker then .err .badStart (.two (byteAt b 0) (byteAt b 1))
  else if slice b (n - 2) n ≠ endMarker then .err .badEnd (.two (byteAt b (n - 2)) (byteAt b (n - 1)))
  else .ok (.packet (byteAt b 2) (byteAt b 3) (slice b 4 (n - 2)))

/-- PKT_UNFRAME (R143). -/
def execPktUnframe (b : List Byte) (s : State) : Host.Outcome State Fault Refusal :=
  s.reply (unframe b)

/-- DATA_PACK (R146). -/
def execDataPack (f : Byte) (q : List Byte) (s : State) : Host.Outcome State Fault Refusal :=
  s.reply (.ok (.seq ([f] ++ q)))

/-- DATA_UNPACK (R147). -/
def execDataUnpack (p : List Byte) (s : State) : Host.Outcome State Fault Refusal :=
  match p with
  | [] => s.raise .noFreqIndex (.num 0)
  | f :: q => s.reply (.ok (.data f q))

end Sys2Proof.Machine
end

