-- ==== Sys2Proof/Machine/Nec.lean ====
section
/-! DEFINITION. The NEC codec (42_nec_codec.md): NEC_ENCODE and NEC_DECODE. Both are pure (R30). -/

namespace Sys2Proof.Machine

/-! ## Encode -/

/-- The bits of a byte, bit 0 first (R43). -/
def bitsOf (b : Byte) : List Bool := (List.range 8).map b.getLsbD

/-- The 32 frame bits of [a, ~a, c, ~c] (R170). -/
def frameBits (a c : Byte) : List Bool := [a, a ^^^ 0xFF#8, c, c ^^^ 0xFF#8].flatMap bitsOf

/-- The units of one bit pair (R175). -/
def bitUnits (bit : Bool) : List Byte :=
  timingUnits true (ticksOf Config.bitMark)
    ++ timingUnits false (ticksOf (if bit then Config.oneSpace else Config.zeroSpace))

/-- The units of the leader (R175). -/
def leaderUnits : List Byte :=
  timingUnits true (ticksOf Config.leaderMark) ++ timingUnits false (ticksOf Config.leaderSpace)

/-- The encoded frame (R175). -/
def necEncode (a c : Byte) : List Byte :=
  leaderUnits ++ (frameBits a c).flatMap bitUnits ++ timingUnits true (ticksOf Config.stopMark)

/-! ## Decode -/

/-- A run (R178): consecutive units of one polarity, their ticks summed. -/
structure Run where
  mark : Bool
  ticks : Nat
  deriving DecidableEq, Repr

/-- Put a unit in front of the runs that follow it (R178, step 2). -/
def consUnit (u : Byte) : List Run → List Run
  | [] => [⟨polarity u, duration u⟩]
  | r :: rs => if r.mark = polarity u then ⟨r.mark, duration u + r.ticks⟩ :: rs else ⟨polarity u, duration u⟩ :: r :: rs

/-- The runs of a sequence (R178): units with D = 0 dropped, neighbours of equal polarity merged. -/
def runs (s : List Byte) : List Run := (s.filter (fun u => duration u ≠ 0)).foldr consUnit []

/-- The runs from the first mark on (R178, R179). -/
def captureRuns (s : List Byte) : List Run := (runs s).dropWhile (fun r => !r.mark)

/-- `inwin(T, N)` for a tolerance (R180), both bounds inclusive, in integers. -/
def inwin (tol : Config.Tolerance) (t n : Nat) : Bool :=
  decide ((tol.den - tol.num) * n ≤ tol.den * (Config.husPerTick * t)
    ∧ tol.den * (Config.husPerTick * t) ≤ (tol.den + tol.num) * n)

/-- `bitOf(T)` (R182): against the midpoint of the two spaces. -/
def bitOf (t : Nat) : Bool := decide ((Config.zeroSpace + Config.oneSpace) / 2 ≤ Config.husPerTick * t)

/-- n bits from the (mark, space) pairs of the runs after the leader; k pairs are already read. The error is the number
of complete pairs (R183). -/
def pairBits : Nat → Nat → List Run → Except Nat (List Bool)
  | 0, _, _ => .ok []
  | n + 1, k, _ :: space :: rest =>
    match pairBits n (k + 1) rest with
    | .ok bits => .ok (bitOf space.ticks :: bits)
    | .error j => .error j
  | _ + 1, k, _ => .error k

/-- A byte from its bits, bit 0 first (R183). -/
def byteOfBits (bits : List Bool) : Byte := BitVec.ofNat 8 (bits.foldr (fun b n => b.toNat + 2 * n) 0)

/-- Byte j of the frame (R183). -/
def frameByte (bits : List Bool) (j : Nat) : Byte := byteOfBits ((bits.drop (8 * j)).take 8)

/-- The checksum and the frame (R185). -/
def checkFrame (b0 b1 b2 b3 : Byte) : Result :=
  if b1 ≠ b0 ^^^ 0xFF#8 ∨ b3 ≠ b2 ^^^ 0xFF#8 then .err .checksumMismatch (.four b0 b1 b2 b3)
  else .ok (.frame b0 b2)

/-- The 32 pairs after a full-frame leader (R183); later runs are ignored (R187). -/
def decodeFrame (rest : List Run) : Result :=
  match pairBits Config.necBits 0 rest with
  | .error k => .err .truncated (.num k)
  | .ok bits => checkFrame (frameByte bits 0) (frameByte bits 1) (frameByte bits 2) (frameByte bits 3)

/-- What follows a repeat-code leader (R183, R186). -/
def decodeRepeat (tol : Config.Tolerance) : List Run → Result
  | [] => .err .truncated (.num 0)
  | r :: _ => if inwin tol r.ticks Config.bitMark then .ok .repeatCode else .err .invalidLeader (.num 2)

/-- What follows a good leader mark (R183). -/
def decodeAfterMark (tol : Config.Tolerance) : List Run → Result
  | [] => .err .truncated (.num 0)
  | r :: rest =>
    if inwin tol r.ticks Config.leaderSpace then decodeFrame rest
    else if inwin tol r.ticks Config.repeatSpace then decodeRepeat tol rest
    else .err .invalidLeader (.num 1)

/-- The decision on the runs (R183, R184). -/
def decodeRuns (tol : Config.Tolerance) : List Run → Result
  | [] => .err .invalidLeader (.num 0)
  | r :: rest =>
    if inwin tol r.ticks Config.leaderMark then decodeAfterMark tol rest else .err .invalidLeader (.num 0)

/-- NEC_DECODE's result for a tolerance (R8, R183). -/
def necDecode (tol : Config.Tolerance) (s : List Byte) : Result := decodeRuns tol (captureRuns s)

/-! ## The two operations -/

/-- NEC_ENCODE (R175). -/
def execNecEncode (a c : Byte) (s : State) : Host.Outcome State Fault Refusal :=
  s.reply (.ok (.seq (necEncode a c)))

/-- NEC_DECODE (R183) at `TOL` (R8). -/
def execNecDecode (q : List Byte) (s : State) : Host.Outcome State Fault Refusal :=
  s.reply (necDecode Config.tol q)

end Sys2Proof.Machine
end

