-- ==== Sys2Proof/Machine/System.lean ====
section
/-! DEFINITION. RESET (R240) and the illegal op words (R64). -/

namespace Sys2Proof.Machine

/-- RESET (R240). Every register takes its reset value; RBUF's contents are new free values (U9, log 2). -/
def execReset (s : State) : Host.Outcome State Fault Refusal :=
  .next ({ s with rasm := s.rasm.restart, pktSeq := 0#4, cmdSeq := 0#7 }.answer (.ok .unit))

/-- The op word 0x0F: IllegalOp, no state change (R64). -/
def execIllegal (s : State) : Host.Outcome State Fault Refusal :=
  s.raise .illegalOp (.num 0x0F)

/-- An op word with RSV not zero: IllegalOp with the op word, no state change (R64). -/
def execIllegalRsv (rsv opc : BitVec 4) (s : State) : Host.Outcome State Fault Refusal :=
  s.raise .illegalOp (.num (rsv ++ opc).toNat)

end Sys2Proof.Machine
end

