-- ==== Sys2Proof/Machine/WireByte.lean ====
section
/-! DEFINITION. The table's rows that are bytes of a wire format (R65, R68, R73). No operation has such an encoding; the
meaning of each is the reading the spec gives the byte, with no register written (DEDUCED, log 6). -/

namespace Sys2Proof.Machine

/-- TBYTE_MARK (R65). -/
def execTbyteMark (d : BitVec 7) (s : State) : Host.Outcome State Fault Refusal :=
  s.reply (.ok (readTiming (1#1 ++ d)))

/-- TBYTE_SPACE (R65). -/
def execTbyteSpace (d : BitVec 7) (s : State) : Host.Outcome State Fault Refusal :=
  s.reply (.ok (readTiming (0#1 ++ d)))

/-- CT_VERSION (R73, R148). -/
def execCtVersion (s : State) : Host.Outcome State Fault Refusal := s.reply (.ok (.cmdType (cmdTypeOf 0x56#8)))

/-- CT_IDLE_MODE (R73, R148). -/
def execCtIdleMode (s : State) : Host.Outcome State Fault Refusal := s.reply (.ok (.cmdType (cmdTypeOf 0x4C#8)))

/-- CT_SEND_MODE (R73, R148). -/
def execCtSendMode (s : State) : Host.Outcome State Fault Refusal := s.reply (.ok (.cmdType (cmdTypeOf 0x53#8)))

/-- CT_RECV_MODE (R73, R148). -/
def execCtRecvMode (s : State) : Host.Outcome State Fault Refusal := s.reply (.ok (.cmdType (cmdTypeOf 0x52#8)))

/-- CT_DATA (R73, R148). -/
def execCtData (s : State) : Host.Outcome State Fault Refusal := s.reply (.ok (.cmdType (cmdTypeOf 0x44#8)))

/-- CT_OUTPUT (R73, R148). -/
def execCtOutput (s : State) : Host.Outcome State Fault Refusal := s.reply (.ok (.cmdType (cmdTypeOf 0x4F#8)))

/-- CT_CANCEL (R73, R148). -/
def execCtCancel (s : State) : Host.Outcome State Fault Refusal := s.reply (.ok (.cmdType (cmdTypeOf 0x43#8)))

/-- RPTID_OUTBOUND (R68). -/
def execRptidOutbound (s : State) : Host.Outcome State Fault Refusal := s.reply (.ok (.direction (directionOf 0x02#8)))

/-- RPTID_INBOUND (R68). -/
def execRptidInbound (s : State) : Host.Outcome State Fault Refusal := s.reply (.ok (.direction (directionOf 0x01#8)))

end Sys2Proof.Machine
end

