-- ==== Sys2Proof/Machine/Dispatch.lean ====
section
/-! DEFINITION. One arm per instruction. -/

namespace Sys2Proof.Machine

-- The operations, in the table's order.
def exec (i : Instr) (s : State) : Host.Outcome State Fault Refusal :=
  match i with
  | .reset => Sys2Proof.Machine.execReset s
  | .necEncode a c => Sys2Proof.Machine.execNecEncode a c s
  | .necDecode q => Sys2Proof.Machine.execNecDecode q s
  | .fragSplit p k => Sys2Proof.Machine.execFragSplit p k s
  | .rasmPush r => Sys2Proof.Machine.execRasmPush r s
  | .rasmTake => Sys2Proof.Machine.execRasmTake s
  | .rasmClear => Sys2Proof.Machine.execRasmClear s
  | .pktFrame j t p => Sys2Proof.Machine.execPktFrame j t p s
  | .pktUnframe b => Sys2Proof.Machine.execPktUnframe b s
  | .dataPack f q => Sys2Proof.Machine.execDataPack f q s
  | .dataUnpack p => Sys2Proof.Machine.execDataUnpack p s
  | .seqNextPkt => Sys2Proof.Machine.execSeqNextPkt s
  | .seqNextCmd => Sys2Proof.Machine.execSeqNextCmd s
  | .rptParse r => Sys2Proof.Machine.execRptParse r s
  | .fragReassemble rs => Sys2Proof.Machine.execFragReassemble rs s
  | .illegal => Sys2Proof.Machine.execIllegal s
  | .illegalRsv rsv opc => Sys2Proof.Machine.execIllegalRsv rsv opc s
  -- The bytes of the wire formats.
  | .tbyteMark d => Sys2Proof.Machine.execTbyteMark d s
  | .tbyteSpace d => Sys2Proof.Machine.execTbyteSpace d s
  | .ctVersion => Sys2Proof.Machine.execCtVersion s
  | .ctIdleMode => Sys2Proof.Machine.execCtIdleMode s
  | .ctSendMode => Sys2Proof.Machine.execCtSendMode s
  | .ctRecvMode => Sys2Proof.Machine.execCtRecvMode s
  | .ctData => Sys2Proof.Machine.execCtData s
  | .ctOutput => Sys2Proof.Machine.execCtOutput s
  | .ctCancel => Sys2Proof.Machine.execCtCancel s
  | .rptidOutbound => Sys2Proof.Machine.execRptidOutbound s
  | .rptidInbound => Sys2Proof.Machine.execRptidInbound s

end Sys2Proof.Machine
end

