-- ==== Sys2Proof/Machine/Step.lean ====
section
/-! DEFINITION. One step: the host issues its next operation and the block performs it (R5). -/

namespace Sys2Proof.Machine

/-- One step. With nothing to issue the state stays as it is: nothing happens between operations (R5). An issue that
overlaps the one before it is refused (R220), whether that one answered Ok or an error (log 5). -/
def step (s : State) : Host.Outcome State Fault Refusal :=
  match s.fetch with
  | none => .next s
  | some (i, t) =>
    if i.overlaps then .refused .concurrentIssue
    else
      match decode i.code with
      | .ok ins => closeIssue i (exec ins t)
      | .error rej => closeIssue i (t.reply (.ok (rejectReading rej)))

/-- s with a table word issued next (log 1): the host's program, which the spec keeps outside the block, begins with it. -/
def State.withFetchWord (s : State) (nbits w : Nat) : State :=
  { s with program := tableIssue nbits w :: s.program }

end Sys2Proof.Machine
end

