-- ==== Sys2Proof/Machine/Pseudo.lean ====
section
/-! DEFINITION. The pseudo-operations of R81, as the host performs them: each a fixed sequence of operations in which a
result is an operand of a later operation. They are no instructions of the block; step does not use them. -/

namespace Sys2Proof.Machine

/-- How a sequence of the host's ends (R80, R252). -/
inductive HostRun (α : Type) where
  /-- Every operation returned Ok: the value and the state. -/
  | done (a : α) (s : State)
  /-- An operation returned an error, which ends the sequence. -/
  | ended (e : ErrorKind) (info : Info) (s : State)
  /-- An operation gave no next state, or a value of another kind than its rule names. -/
  | stuck
  deriving DecidableEq, Repr

/-- Perform one operation and go on with its Ok value, or end at its error (R80). -/
def perform {α β : Type} (i : Instr) (pick : Value → Option α) (s : State) (k : α → State → HostRun β) : HostRun β :=
  match nextOf (exec i s) with
  | none => .stuck
  | some t =>
    match t.results.getLast? with
    | some (.ok v) =>
      match pick v with
      | some a => k a t
      | none => .stuck
    | some (.err e info) => .ended e info t
    | none => .stuck

def pickU8 : Value → Option Byte
  | .u8 v => some v
  | _ => none

def pickSeq : Value → Option (List Byte)
  | .seq bs => some bs
  | _ => none

def pickReports : Value → Option (List Report)
  | .reports rs => some rs
  | _ => none

def pickPacket : Value → Option (Byte × Byte × List Byte)
  | .packet i t p => some (i, t, p)
  | _ => none

def pickData : Value → Option (Byte × List Byte)
  | .data f q => some (f, q)
  | _ => none

/-- `tx.cmd t, d -> reps` (R81). -/
def txCmd (t : Byte) (d : List Byte) (s : State) : HostRun (List Report) :=
  perform .seqNextCmd pickU8 s fun i s =>
  perform (.pktFrame i t d) pickSeq s fun b s =>
  perform .seqNextPkt pickU8 s fun k s =>
  perform (.fragSplit b k) pickReports s fun reps s => .done reps s

/-- `tx.mode t -> reps` (R81), for t among IDLE_MODE, SEND_MODE and RECV_MODE. DESIGN CHOICE, log 11: for any other t,
for which R81 gives no expansion, the same one. -/
def txMode (t : Byte) (s : State) : HostRun (List Report) := txCmd t [] s

/-- `tx.nec f, a, c -> reps` (R81). -/
def txNec (f a c : Byte) (s : State) : HostRun (List Report) :=
  perform (.necEncode a c) pickSeq s fun q s =>
  perform (.dataPack f q) pickSeq s fun d s =>
  txCmd 0x44#8 d s

/-- `rasm.push r1; ...; rasm.push rn`, then the rest (R81). -/
def pushEach {β : Type} : List Report → State → (State → HostRun β) → HostRun β
  | [], s, k => k s
  | r :: rs, s, k => perform (.rasmPush r) some s fun _ s => pushEach rs s k

/-- `rx.pkt r1..rn -> (i, t, d)` (R81). DESIGN CHOICE, log 11: a list of no reports, which R81 does not speak of, pushes
nothing. -/
def rxPkt (rs : List Report) (s : State) : HostRun (Byte × Byte × List Byte) :=
  pushEach rs s fun s =>
  perform .rasmTake pickSeq s fun b s =>
  perform (.pktUnframe b) pickPacket s fun itd s => .done itd s

/-- `rx.nec r1..rn -> res` (R81). Where inbound DATA starts with no frequency index the host gives the whole data to
NEC_DECODE (R147, U6); `Config.inboundDataHasFreq` is the default. -/
def rxNec (hasFreq : Bool) (rs : List Report) (s : State) : HostRun Value :=
  match rxPkt rs s with
  | .done (_, _, d) s =>
    if hasFreq then
      perform (.dataUnpack d) pickData s fun fq s =>
      perform (.necDecode fq.2) some s fun v s => .done v s
    else perform (.necDecode d) some s fun v s => .done v s
  | .ended e info s => .ended e info s
  | .stuck => .stuck

end Sys2Proof.Machine
end

