-- ==== Sys2Proof/Safety.lean ====
section
/-! DEFINITION. The invariant of R33, with the form of RBUF that the model adds (log 2). -/

namespace Sys2Proof.Machine

/-- The four progress registers are 0. -/
abbrev Rasm.progressZero (g : Rasm) : Prop := g.pkt = 0#8 ∧ g.cnt = 0#4 ∧ g.next = 0#5 ∧ g.len = 0#10

/-- The values `RASM_ERR` takes in ERROR (R26, R33). -/
abbrev latchCodes : List Byte := [0x10#8, 0x11#8, 0x12#8, 0x13#8, 0x14#8]

/-- R33's four lines on the reassembly registers. -/
abbrev Rasm.regsInv (g : Rasm) : Prop :=
  (g.st = .idle → g.progressZero ∧ g.err = 0#8) ∧
  (g.st = .active → 1 ≤ g.cnt.toNat ∧ g.cnt.toNat ≤ 15 ∧ 2 ≤ g.next.toNat ∧ g.next.toNat ≤ g.cnt.toNat ∧
    g.len.toNat ≤ 56 * (g.next.toNat - 1) ∧ g.err = 0#8) ∧
  (g.st = .complete → 1 ≤ g.cnt.toNat ∧ g.cnt.toNat ≤ 15 ∧ g.next.toNat = g.cnt.toNat + 1 ∧
    g.len.toNat ≤ 56 * g.cnt.toNat ∧ g.err = 0#8) ∧
  (g.st = .error → g.progressZero ∧ g.err ∈ latchCodes)

/-- RBUF is in canonical form and within its 840 bytes, and the bytes below `RASM_LEN` have been written, so no
free value is among them. -/
abbrev Rasm.bufInv (g : Rasm) : Prop :=
  g.buf.wf ∧ (∀ c ∈ g.buf, c.1 < Config.maxPacket) ∧ (∀ a, a < g.len.toNat → (g.buf.written a).isSome = true)

/-- The invariant. R33's last line, PKT_SEQ ≤ 15 and CMD_SEQ ≤ 127, holds by the widths. -/
abbrev State.Inv (s : State) : Prop := s.rasm.regsInv ∧ s.rasm.bufInv

end Sys2Proof.Machine
end

