-- ==== Sys2Proof/Certificates/Slice0/Obligations.lean ====
section
/-! DEFINITION. The statements for the provers, with the few definitions they are written in. -/

open Sys2Proof Sys2Proof.Machine

namespace Sys2Proof.Claims

/-- The operation answers r and changes nothing else. -/
def Replies (i : Instr) (s : State) (r : Result) : Prop :=
  exec i s = .next { s with results := s.results ++ [r] }

/-- The op word of an operation, with the operand fields it reads (R61, R62). -/
def Encodes (w : Byte) (f : Operands → Instr) : Prop := ∀ o : Operands, decode ⟨.op, w, o⟩ = .ok (f o)

/-- Byte i of a sequence, as a number. -/
abbrev num (r : List Byte) (i : Nat) : Nat := (r.getD i 0#8).toNat

/-- `hdr_ok` as R105 writes it. -/
abbrev hdrValid (r : Report) : Prop :=
  3 ≤ num r 1 ∧ num r 1 ≤ 59 ∧ 1 ≤ num r 3 ∧ num r 3 ≤ 15 ∧ 1 ≤ num r 4 ∧ num r 4 ≤ num r 3

/-- The payload as R106 writes it. -/
def payloadOf (r : Report) : List Byte := (r.drop 5).take (num r 1 - 3)

/-- The first violation of R109 in its order, with its code of R211. -/
def firstViolation (r : Report) (g : Rasm) : Option (ErrorKind × Byte) :=
  if ¬ hdrValid r then some (.badHeader, 0x10#8)
  else if g.st = .idle then
    if num r 4 ≠ 1 then some (.indexGap, 0x14#8) else none
  else if num r 2 ≠ g.pkt.toNat then some (.packetIndexMismatch, 0x11#8)
  else if num r 3 ≠ g.cnt.toNat then some (.countMismatch, 0x12#8)
  else if num r 4 < g.next.toNat then some (.duplicateIndex, 0x13#8)
  else if num r 4 > g.next.toNat then some (.indexGap, 0x14#8)
  else none

/-- Where RASM_PUSH stores a payload (R109): 0 in IDLE, else RASM_LEN. -/
def storeOffset (g : Rasm) : Nat := if g.st = .idle then 0 else g.len.toNat

/-- Perform operations one after the other. -/
def execAll : List Instr → State → Option State
  | [], s => some s
  | i :: is, s =>
    match nextOf (exec i s) with
    | some t => execAll is t
    | none => none

/-- The number of fragments of n bytes: max(1, ceil(n/56)). -/
def fragments (n : Nat) : Nat := if n ≤ 56 then 1 else (n + 55) / 56

/-- Fragment j (from 0) of p for packet index k, as R102 lists its bytes. -/
def fragment (p : List Byte) (k : Byte) (j : Nat) : Report :=
  let c := (p.drop (56 * j)).take 56
  [0x02#8, BitVec.ofNat 8 (c.length + 3), k, BitVec.ofNat 8 (fragments p.length), BitVec.ofNat 8 (j + 1)]
    ++ c ++ List.replicate (56 - c.length) 0#8

/-- The reports of one packet in order: every one of 61 bytes with a valid header, the same packet index, the count of
the list, and the indices 1, 2, ... -/
def InOrder (rs : List Report) : Prop :=
  rs ≠ [] ∧ ∀ j r, rs[j]? = some r →
    r.length = 61 ∧ hdrValid r ∧ num r 2 = num (rs.getD 0 []) 2 ∧ num r 3 = rs.length ∧ num r 4 = j + 1

/-- Frame bit k of [a, ~a, c, ~c] (R170). -/
def frameBit (a c : Byte) (k : Nat) : Bool :=
  if k < 8 then a.getLsbD k
  else if k < 16 then !a.getLsbD (k - 8)
  else if k < 24 then c.getLsbD (k - 16)
  else !c.getLsbD (k - 24)

/-- R180 with TOL = 1/4. -/
abbrev within (t n : Nat) : Prop := 3 * n ≤ 128 * t ∧ 128 * t ≤ 5 * n

/-- NEC_DECODE's decision on the runs, as the pseudocode of R183 indexes them. -/
def decodeByRule (r : List Run) : Result :=
  let t := fun i => (r.getD i ⟨false, 0⟩).ticks
  let bit := fun k => if 2250 ≤ 32 * t (3 + 2 * k) then 1 else 0
  let byte := fun j => BitVec.ofNat 8 ((List.range 8).map (fun i => bit (8 * j + i) * 2 ^ i)).sum
  if r.length = 0 then .err .invalidLeader (.num 0)
  else if ¬ within (t 0) 18000 then .err .invalidLeader (.num 0)
  else if r.length < 2 then .err .truncated (.num 0)
  else if within (t 1) 9000 then
    if r.length < 66 then .err .truncated (.num ((r.length - 2) / 2))
    else if byte 1 ≠ byte 0 ^^^ 0xFF#8 ∨ byte 3 ≠ byte 2 ^^^ 0xFF#8 then
      .err .checksumMismatch (.four (byte 0) (byte 1) (byte 2) (byte 3))
    else .ok (.frame (byte 0) (byte 2))
  else if within (t 1) 4500 then
    if r.length < 3 then .err .truncated (.num 0)
    else if within (t 2) 1125 then .ok .repeatCode
    else .err .invalidLeader (.num 2)
  else .err .invalidLeader (.num 1)

/-- The bytes of a logical packet (R71). -/
def packetBytes (i t : Byte) (p : List Byte) : List Byte := [0x54#8, 0x53#8, i, t] ++ p ++ [0x4E#8, 0x45#8]

/-- The seven command types (R73). -/
def sevenTypes : List Byte := [0x56#8, 0x4C#8, 0x53#8, 0x52#8, 0x44#8, 0x4F#8, 0x43#8]

/-- Two states that differ at most in the bytes of RBUF at and above RASM_LEN (R34), written or free (log 2). -/
def VisiblyEqual (s t : State) : Prop :=
  t = { s with rasm := { s.rasm with buf := t.rasm.buf, era := t.rasm.era } } ∧
    ∀ a, a < s.rasm.len.toNat → t.rasm.byte a = s.rasm.byte a

end Sys2Proof.Claims

open Sys2Proof.Claims

/-! ## The step, decoding and encoding -/

/-- A step runs the decoded instruction (R5, R61) on the state less that issue, and adds one thing: after an error
result of an issue that says so, no operation is left to issue (R80, R252; the model's reading is log 4) but those that
were issued before it returned, which overlap (R220; log 5). -/
def Obligations.StepRunsDecodedIssue : Prop :=
  ∀ (s : State) (i : Issue) (rest : List Issue) (ins : Instr),
    s.program = i :: rest → i.overlaps = false → decode i.code = .ok ins →
      (∀ f, exec ins { s with program := rest } = .fault f → step s = .fault f) ∧
      (∀ t rs v, exec ins { s with program := rest } = .next t → t.results = rs ++ [.ok v] → step s = .next t) ∧
      (∀ t rs e info, exec ins { s with program := rest } = .next t → t.results = rs ++ [.err e info] →
        step s = .next (if i.stopOnError = true then { t with program := rest.takeWhile Issue.overlaps } else t))

/-- With nothing to issue nothing happens (R5); an issue that overlaps the one before it is refused (R220). Both rest on
the model's own form of the host's program, logs 1 and 5. -/
def Obligations.IdleStepAndOverlappingIssue : Prop :=
  (∀ s : State, s.program = [] → step s = .next s) ∧
  (∀ (s : State) (i : Issue) (rest : List Issue), s.program = i :: rest → i.overlaps = true →
    step s = .refused .concurrentIssue)

/-- An issue that overlaps the one before it is refused next, whatever that one answers: it is neither performed nor
dropped (R220, U26). The mark that says it overlaps is the model's own, log 5. -/
def Obligations.OverlappingIssueIsRefusedNext : Prop :=
  ∀ (s t : State) (i j : Issue) (rest : List Issue), s.program = i :: j :: rest → j.overlaps = true →
    step s = .next t → step t = .refused .concurrentIssue

/-- A byte of a wire format that is no row of the table is read too (R68, R74, R148): the model's choice, log 6. -/
def Obligations.WireByteOutsideTableIsRead : Prop :=
  ∀ (s : State) (w : Byte) (o : Operands) (stop : Bool) (rest : List Issue),
    (w ∉ sevenTypes → s.program = ⟨⟨.cmdType, w, o⟩, false, stop⟩ :: rest →
      step s = .next { s with program := rest, results := s.results ++ [.ok (.cmdType (.unknown w))] }) ∧
    (w ≠ 0x01#8 → w ≠ 0x02#8 → s.program = ⟨⟨.reportId, w, o⟩, false, stop⟩ :: rest →
      step s = .next { s with program := rest, results := s.results ++ [.ok (.direction (.unassigned w))] })

/-- Decoding an encoded well-formed instruction gives it back (R61, R62, R64, R65, R68, R73). -/
def Obligations.DecodeOfEncodeIsIdentity : Prop :=
  ∀ i : Instr, i.wf = true → decode (encode i) = .ok i

/-- The operation map of R62, each op word with its operand fields. -/
def Obligations.OpWordsDecodeByTable : Prop :=
  Encodes 0x00#8 (fun _ => .reset) ∧ Encodes 0x01#8 (fun o => .necEncode o.fst o.snd) ∧
  Encodes 0x02#8 (fun o => .necDecode o.seq) ∧ Encodes 0x03#8 (fun o => .fragSplit o.seq o.fst) ∧
  Encodes 0x04#8 (fun o => .rasmPush o.report) ∧ Encodes 0x05#8 (fun _ => .rasmTake) ∧
  Encodes 0x06#8 (fun _ => .rasmClear) ∧ Encodes 0x07#8 (fun o => .pktFrame o.fst o.snd o.seq) ∧
  Encodes 0x08#8 (fun o => .pktUnframe o.seq) ∧ Encodes 0x09#8 (fun o => .dataPack o.fst o.seq) ∧
  Encodes 0x0A#8 (fun o => .dataUnpack o.seq) ∧ Encodes 0x0B#8 (fun _ => .seqNextPkt) ∧
  Encodes 0x0C#8 (fun _ => .seqNextCmd) ∧ Encodes 0x0D#8 (fun o => .rptParse o.report) ∧
  Encodes 0x0E#8 (fun o => .fragReassemble o.reports)

/-- R64: 0x0F and every byte with RSV not zero decode to an instruction that performs nothing, changes no register and
answers IllegalOp with the op word; the two constructors are named. -/
def Obligations.IllegalOpWordsAnswerIllegalOp : Prop :=
  (∀ s : State, Replies .illegal s (.err .illegalOp (.num 0x0F))) ∧
  (∀ (rsv opc : BitVec 4) (s : State),
    Replies (.illegalRsv rsv opc) s (.err .illegalOp (.num (16 * rsv.toNat + opc.toNat)))) ∧
  (∀ (w : Byte) (o : Operands), (w = 0x0F#8 ∨ 16 ≤ w.toNat) →
    ∃ i, decode ⟨.op, w, o⟩ = .ok i ∧ ∀ s : State, Replies i s (.err .illegalOp (.num w.toNat)))

/-! ## Reset and the invariant -/

/-- RESET (R240) from any state, and what the two sequence operations return next. RBUF's contents are unspecified: each
byte holds a free value (log 2). That the host's program and the results returned before survive RESET are the model's
choices, logs 1 and 3. -/
def Obligations.ResetRestoresRegisters : Prop :=
  Encodes 0x00#8 (fun _ => .reset) ∧ ∀ s : State, ∃ t, exec .reset s = .next t ∧
    t.rasm.st = .idle ∧ t.rasm.err = 0x00#8 ∧ t.rasm.pkt = 0#8 ∧ t.rasm.cnt = 0#4 ∧ t.rasm.next = 0#5 ∧
    t.rasm.len = 0#10 ∧ t.pktSeq = 0#4 ∧ t.cmdSeq = 0#7 ∧ (∀ a, t.rasm.byte a = Config.rbufFree t.rasm.era a) ∧
    t.results = s.results ++ [.ok .unit] ∧ t.program = s.program ∧
    (∃ u, exec .seqNextPkt t = .next u ∧ u.results = t.results ++ [.ok (.u8 1#8)]) ∧
    (∃ u, exec .seqNextCmd t = .next u ∧ u.results = t.results ++ [.ok (.u8 1#8)])

/-- The state after reset or power-on holds R35's values and meets the invariant. Each byte of RBUF, unspecified there,
holds a free value (log 2). -/
def Obligations.ResetStateMeetsInvariant : Prop :=
  State.reset.Inv ∧ State.reset.rasm.st = .idle ∧ State.reset.rasm.pkt = 0#8 ∧ State.reset.rasm.cnt = 0#4 ∧
    State.reset.rasm.next = 0#5 ∧ State.reset.rasm.len = 0#10 ∧ State.reset.rasm.err = 0x00#8 ∧
    State.reset.pktSeq = 0#4 ∧ State.reset.cmdSeq = 0#7 ∧
    (∀ a, State.reset.rasm.byte a = Config.rbufFree State.reset.rasm.era a)

/-- Every step from a state that meets R33's invariant (and the form of RBUF, log 2) leads to one that meets it. -/
def Obligations.StepKeepsInvariant : Prop :=
  ∀ s t : State, s.Inv → step s = .next t → t.Inv

/-- From a state that meets the invariant every step answers a next state (R210), but for an issue that overlaps the one
before it: that the model refuses it by name is log 5 (R220). -/
def Obligations.StepNeverFaultsUnderInvariant : Prop :=
  ∀ s : State, s.Inv →
    (∃ t, step s = .next t) ∨
    (∃ i rest, s.program = i :: rest ∧ i.overlaps = true ∧ step s = .refused .concurrentIssue)

/-! ## Whole-machine rules -/

/-- No instruction is refused: each is performed, answers an error, or stops on an access beyond offset 839 of RBUF, which
only a state outside the invariant can make (R210, R219; log 9). -/
def Obligations.NoInstructionIsRefused : Prop :=
  ∀ (i : Instr) (s : State),
    (∃ t, exec i s = .next t) ∨
    (exec i s = .fault .rbufRange ∧ ∃ r, i = .rasmPush r ∧ s.rasm.st = .active ∧ 840 < s.rasm.len.toNat + (num r 1 - 3)) ∨
    (exec i s = .fault .rbufRange ∧ i = .rasmTake ∧ s.rasm.st = .complete ∧ 840 < s.rasm.len.toNat)

/-- Every operation ends with exactly one result (R210), and no operation touches the host's program (log 1). -/
def Obligations.OperationsReturnExactlyOneResult : Prop :=
  ∀ (i : Instr) (s t : State), exec i s = .next t →
    ∃ r, t.results = s.results ++ [r] ∧ t.program = s.program

/-- An error writes no register, but for the latch of RASM_PUSH (R210, R213). -/
def Obligations.ErrorsWriteOnlyTheLatch : Prop :=
  ∀ (i : Instr) (s t : State) (e : ErrorKind) (info : Info),
    exec i s = .next t → t.results = s.results ++ [.err e info] →
      t = { s with results := s.results ++ [.err e info] } ∨
      ∃ r code, i = .rasmPush r ∧ (s.rasm.st = .idle ∨ s.rasm.st = .active) ∧ r.length = 61 ∧
        firstViolation r s.rasm = some (e, code) ∧ info = .num (num r 4) ∧
        t = { s with
              rasm := { st := .error, pkt := 0#8, cnt := 0#4, next := 0#5, len := 0#10,
                        err := code, buf := s.rasm.buf, era := s.rasm.era }
              results := s.results ++ [.err e info] }

/-- Only RASM_PUSH, RASM_TAKE, RASM_CLEAR and RESET write the reassembly registers (R21 to R26); only RASM_PUSH writes
RBUF (R27), but for RESET, after which its contents are unspecified: free values, as era says (R240, log 2). -/
def Obligations.WritersOfReassemblyBuffer : Prop :=
  ∀ (i : Instr) (s t : State), exec i s = .next t → (∀ r, i ≠ .rasmPush r) → i ≠ .reset →
    t.rasm.buf = s.rasm.buf ∧ t.rasm.era = s.rasm.era ∧ (i ≠ .rasmTake → i ≠ .rasmClear → t.rasm = s.rasm)

/-- R28: what PKT_SEQ holds and who writes it. -/
def Obligations.PktSeqHoldsLastIssuedIndex : Prop :=
  State.reset.pktSeq = 0#4 ∧
  (∀ s t : State, exec .reset s = .next t → t.pktSeq = 0#4) ∧
  (∀ s t : State, exec .seqNextPkt s = .next t → ∃ v, t.results = s.results ++ [.ok (.u8 v)] ∧ v.toNat = t.pktSeq.toNat) ∧
  (∀ (i : Instr) (s t : State), exec i s = .next t → i ≠ .seqNextPkt → i ≠ .reset → t.pktSeq = s.pktSeq)

/-- R29: what CMD_SEQ holds and who writes it. -/
def Obligations.CmdSeqHoldsLastIssuedId : Prop :=
  State.reset.cmdSeq = 0#7 ∧
  (∀ s t : State, exec .reset s = .next t → t.cmdSeq = 0#7) ∧
  (∀ s t : State, exec .seqNextCmd s = .next t → ∃ v, t.results = s.results ++ [.ok (.u8 v)] ∧ v.toNat = t.cmdSeq.toNat) ∧
  (∀ (i : Instr) (s t : State), exec i s = .next t → i ≠ .seqNextCmd → i ≠ .reset → t.cmdSeq = s.cmdSeq)

/-- R26: RASM_ERR becomes a non-zero value only by the latch of RASM_PUSH, 0x00 only by RASM_CLEAR and RESET, and nothing
else writes it. -/
def Obligations.WritersOfRasmErr : Prop :=
  ∀ (i : Instr) (s t : State), exec i s = .next t → t.rasm.err ≠ s.rasm.err →
    (t.rasm.err = 0x00#8 ∧ (i = .rasmClear ∨ i = .reset)) ∨
    (t.rasm.err ∈ [0x10#8, 0x11#8, 0x12#8, 0x13#8, 0x14#8] ∧ t.rasm.st = .error ∧ ∃ r, i = .rasmPush r)

/-- What was returned before and what will be issued later influence no operation (R51, logs 1 and 3). -/
def Obligations.OperationsIgnoreResultsAndProgram : Prop :=
  ∀ (i : Instr) (s t : State), exec i s = .next t →
    ∃ r, t.results = s.results ++ [r] ∧
      ∀ (xs : List Result) (p : List Issue),
        exec i { s with results := xs, program := p } = .next { t with results := xs ++ [r], program := p }

/-- The bytes of RBUF at and above RASM_LEN are hidden: no operation returns them or lets them influence a register
(R34), whatever the free values are (log 2). -/
def Obligations.HiddenBytesNeverInfluence : Prop :=
  ∀ (i : Instr) (s s' t : State), VisiblyEqual s s' → exec i s = .next t →
    ∃ t', exec i s' = .next t' ∧ VisiblyEqual t t'

/-! ## Sequence generators -/

/-- SEQ_NEXT_PKT (R100). -/
def Obligations.SeqNextPktIssuesNextIndex : Prop :=
  Encodes 0x0B#8 (fun _ => .seqNextPkt) ∧ ∀ s : State,
    ∃ (v : Byte) (n : BitVec 4), v.toNat = s.pktSeq.toNat % 15 + 1 ∧ n.toNat = v.toNat ∧ 1 ≤ v.toNat ∧ v.toNat ≤ 15 ∧
      exec .seqNextPkt s = .next { s with pktSeq := n, results := s.results ++ [.ok (.u8 v)] }

/-- Two consecutive indices differ, whatever comes between them that leaves PKT_SEQ alone (R101). -/
def Obligations.ConsecutivePacketIndicesDiffer : Prop :=
  ∀ s t t' u : State, exec .seqNextPkt s = .next t → t'.pktSeq = t.pktSeq → exec .seqNextPkt t' = .next u →
    u.pktSeq ≠ t.pktSeq

/-- SEQ_NEXT_CMD (R140); two consecutive values differ. -/
def Obligations.SeqNextCmdIssuesNextId : Prop :=
  Encodes 0x0C#8 (fun _ => .seqNextCmd) ∧ ∀ s : State,
    ∃ (v : Byte) (n : BitVec 7), v.toNat = s.cmdSeq.toNat % 127 + 1 ∧ n.toNat = v.toNat ∧ 1 ≤ v.toNat ∧ v.toNat ≤ 127 ∧
      n ≠ s.cmdSeq ∧ exec .seqNextCmd s = .next { s with cmdSeq := n, results := s.results ++ [.ok (.u8 v)] }

/-! ## Fragmentation and the report parser -/

/-- FRAG_SPLIT (R102): the reports of a packet that fits, byte by byte, and the two errors in their order. -/
def Obligations.FragSplitFollowsRule : Prop :=
  Encodes 0x03#8 (fun o => .fragSplit o.seq o.fst) ∧ ∀ (p : List Byte) (k : Byte) (s : State),
    (k.toNat < 1 ∨ 15 < k.toNat → Replies (.fragSplit p k) s (.err .badArgument (.num k.toNat))) ∧
    (1 ≤ k.toNat → k.toNat ≤ 15 → 840 < p.length →
      Replies (.fragSplit p k) s (.err .invalidPayload (.num (fragments p.length)))) ∧
    (1 ≤ k.toNat → k.toNat ≤ 15 → p.length ≤ 840 →
      ∃ reps, Replies (.fragSplit p k) s (.ok (.reports reps)) ∧ reps.length = fragments p.length ∧
        1 ≤ reps.length ∧ reps.length ≤ 15 ∧ ∀ j, j < reps.length → reps[j]? = some (fragment p k j))

/-- The reports of a split packet are in order, say 0x02, carry the index k, and their payloads are the packet (R103). -/
def Obligations.SplitReportsAreInOrder : Prop :=
  ∀ (p : List Byte) (k : Byte) (s : State), 1 ≤ k.toNat → k.toNat ≤ 15 → p.length ≤ 840 →
    ∃ reps, Replies (.fragSplit p k) s (.ok (.reports reps)) ∧ InOrder reps ∧
      (∀ r ∈ reps, num r 0 = 2 ∧ num r 2 = k.toNat) ∧ reps.flatMap payloadOf = p

/-- RPT_PARSE (R104), with `hdr_ok` (R105) and the payload (R106). -/
def Obligations.RptParseReadsHeader : Prop :=
  Encodes 0x0D#8 (fun o => .rptParse o.report) ∧ ∀ (r : Report) (s : State),
    (r.length ≠ 61 → Replies (.rptParse r) s (.err .badArgument (.num r.length))) ∧
    (r.length = 61 → ∃ h : Hdr, Replies (.rptParse r) s (.ok (.hdr h)) ∧
      h.reportId = r.getD 0 0#8 ∧ h.fragSize = r.getD 1 0#8 ∧ h.packetIdx = r.getD 2 0#8 ∧
      h.fragCount = r.getD 3 0#8 ∧ h.fragIdx = r.getD 4 0#8 ∧ (h.ok = true ↔ hdrValid r) ∧
      (hdrValid r → h.payload = payloadOf r ∧ h.payload.length = num r 1 - 3) ∧
      (¬ hdrValid r → h.payload = []))

/-! ## The reassembly buffer -/

/-- RASM_PUSH stores an accepted fragment (R109): the registers, the bytes, and what stays (an offset that nothing has
written keeps its free value, log 2). The premise on the room in
RBUF holds in every state of the invariant (R109's last corner case). -/
def Obligations.RasmPushStoresAcceptedFragment : Prop :=
  ∀ (r : Report) (s : State), r.length = 61 → (s.rasm.st = .idle ∨ s.rasm.st = .active) →
    firstViolation r s.rasm = none → storeOffset s.rasm + (num r 1 - 3) ≤ 840 →
    ∃ t, exec (.rasmPush r) s = .next t ∧
      t.rasm.st = (if num r 4 = num r 3 then .complete else .active) ∧
      t.rasm.pkt.toNat = num r 2 ∧ t.rasm.cnt.toNat = num r 3 ∧ t.rasm.next.toNat = num r 4 + 1 ∧
      t.rasm.len.toNat = storeOffset s.rasm + (num r 1 - 3) ∧ t.rasm.err = s.rasm.err ∧
      t.results = s.results ++ [.ok (if num r 4 = num r 3 then .complete (storeOffset s.rasm + (num r 1 - 3))
        else .more (num r 4 + 1))] ∧
      t.pktSeq = s.pktSeq ∧ t.cmdSeq = s.cmdSeq ∧ t.program = s.program ∧
      (∀ j, j < num r 1 - 3 → (payloadOf r)[j]? = some (t.rasm.byte (storeOffset s.rasm + j)) ∧
        t.rasm.buf.written (storeOffset s.rasm + j) = (payloadOf r)[j]?) ∧
      (∀ a, (a < storeOffset s.rasm ∨ storeOffset s.rasm + (num r 1 - 3) ≤ a) →
        t.rasm.byte a = s.rasm.byte a ∧ t.rasm.buf.written a = s.rasm.buf.written a) ∧
      t.rasm.era = s.rasm.era ∧ (s.rasm.buf.wf → t.rasm.buf.wf)

/-- RASM_PUSH latches the first violation (R109, R110): the registers, the result, every byte of RBUF as before. -/
def Obligations.RasmPushLatchesFirstViolation : Prop :=
  ∀ (r : Report) (s : State) (e : ErrorKind) (code : Byte), r.length = 61 →
    (s.rasm.st = .idle ∨ s.rasm.st = .active) → firstViolation r s.rasm = some (e, code) →
    exec (.rasmPush r) s = .next { s with
      rasm := { st := .error, pkt := 0#8, cnt := 0#4, next := 0#5, len := 0#10,
                err := code, buf := s.rasm.buf, era := s.rasm.era }
      results := s.results ++ [.err e (.num (num r 4))] }

/-- RASM_PUSH refuses a malformed report before anything else (R63), then answers Locked in ERROR and Busy in COMPLETE,
and none of the three changes a register (R109, R217). -/
def Obligations.RasmPushHoldsOff : Prop :=
  ∀ (r : Report) (s : State),
    (r.length ≠ 61 → Replies (.rasmPush r) s (.err .badArgument (.num r.length))) ∧
    (r.length = 61 → s.rasm.st = .error → Replies (.rasmPush r) s (.err .locked (.num s.rasm.err.toNat))) ∧
    (r.length = 61 → s.rasm.st = .complete → Replies (.rasmPush r) s (.err .busy (.num s.rasm.len.toNat)))

/-- RASM_TAKE (R111) returns the bytes of RBUF below RASM_LEN; RBUF stays as it is. The premise on RASM_LEN, which the
invariant gives, keeps the read within RBUF (R45, log 9). -/
def Obligations.RasmTakeRemovesCompletedPacket : Prop :=
  Encodes 0x05#8 (fun _ => .rasmTake) ∧ ∀ s : State,
    (s.rasm.st = .complete → s.rasm.len.toNat ≤ 840 →
      ∃ b : List Byte, b.length = s.rasm.len.toNat ∧ (∀ a, a < b.length → b[a]? = some (s.rasm.byte a)) ∧
        exec .rasmTake s = .next { s with
          rasm := { st := .idle, pkt := 0#8, cnt := 0#4, next := 0#5, len := 0#10,
                    err := s.rasm.err, buf := s.rasm.buf, era := s.rasm.era }
          results := s.results ++ [.ok (.seq b)] }) ∧
    (s.rasm.st = .idle → Replies .rasmTake s (.err .notReady (.num 0))) ∧
    (s.rasm.st = .active → Replies .rasmTake s (.err .notReady (.num 1))) ∧
    (s.rasm.st = .error → Replies .rasmTake s (.err .notReady (.num 3)))

/-- RASM_CLEAR (R112) succeeds in every state; the sequence generators and RBUF stay. -/
def Obligations.RasmClearAbandonsPacket : Prop :=
  Encodes 0x06#8 (fun _ => .rasmClear) ∧ ∀ s : State,
    exec .rasmClear s = .next { s with
      rasm := { st := .idle, pkt := 0#8, cnt := 0#4, next := 0#5, len := 0#10,
                err := 0x00#8, buf := s.rasm.buf, era := s.rasm.era }
      results := s.results ++ [.ok .unit] }

/-! ## Batch reassembly -/

/-- FRAG_REASSEMBLE answers on every list, and touches no register (R113). -/
def Obligations.FragReassembleAlwaysAnswers : Prop :=
  ∀ (rs : List Report) (s : State), ∃ r : Result, Replies (.fragReassemble rs) s r

/-- FRAG_REASSEMBLE of the reports of one packet in order is the concatenation of their payloads (R113, R49). -/
def Obligations.FragReassembleConcatenatesPayloads : Prop :=
  ∀ (rs : List Report) (s : State), InOrder rs →
    Replies (.fragReassemble rs) s (.ok (.seq (rs.flatMap payloadOf)))

/-- FRAG_REASSEMBLE's own errors (R113): the first malformed report, the empty list, more reports than the count, fewer
reports than the count. -/
def Obligations.FragReassembleCountsReports : Prop :=
  (∀ (xs : List Report) (r : Report) (ys : List Report) (s : State), (∀ x ∈ xs, x.length = 61) → r.length ≠ 61 →
    Replies (.fragReassemble (xs ++ r :: ys)) s (.err .badArgument (.num (xs.length + 1)))) ∧
  (∀ s : State, Replies (.fragReassemble []) s (.err .countMismatch (.num 1))) ∧
  (∀ (rs : List Report) (r : Report) (ys : List Report) (s : State), InOrder rs → (∀ x ∈ r :: ys, x.length = 61) →
    Replies (.fragReassemble (rs ++ r :: ys)) s (.err .countMismatch (.num (num r 4)))) ∧
  (∀ (rs ys : List Report) (s : State), InOrder (rs ++ ys) → rs ≠ [] → ys ≠ [] →
    Replies (.fragReassemble rs) s (.err .countMismatch (.num (rs.length + 1))))

/-- Splitting and reassembling gives the packet back (R115). -/
def Obligations.ReassembleOfSplitIsIdentity : Prop :=
  ∀ (p : List Byte) (k : Byte) (s s' : State), p.length ≤ 840 → 1 ≤ k.toNat → k.toNat ≤ 15 →
    ∃ reps, Replies (.fragSplit p k) s (.ok (.reports reps)) ∧ Replies (.fragReassemble reps) s' (.ok (.seq p))

/-- Where the batch succeeds, streaming from IDLE returns More(2), ..., More(n), Complete, and a take returns the same
bytes (R114, first line). -/
def Obligations.StreamingAgreesWithBatch : Prop :=
  ∀ (rs : List Report) (b : List Byte) (s s' : State), s.rasm.st = .idle →
    Replies (.fragReassemble rs) s' (.ok (.seq b)) →
    ∃ t u : State, execAll (rs.map .rasmPush) s = some t ∧
      t.results = s.results ++ (List.range (rs.length - 1)).map (fun j => .ok (.more (j + 2))) ++ [.ok (.complete b.length)] ∧
      exec .rasmTake t = .next u ∧ u.results = t.results ++ [.ok (.seq b)] ∧ u.rasm.st = .idle

/-- Where a report of the list violates R109 after the reports before it were accepted, batch and stream answer the same
error, and the stream latches it (R114, second line). -/
def Obligations.StreamingFailsAsBatchFails : Prop :=
  ∀ (xs : List Report) (r : Report) (ys : List Report) (s s' t : State) (e : ErrorKind) (code : Byte),
    (∀ x ∈ xs ++ r :: ys, x.length = 61) → s.rasm.st = .idle → execAll (xs.map .rasmPush) s = some t →
    (t.rasm.st = .idle ∨ t.rasm.st = .active) → firstViolation r t.rasm = some (e, code) →
    Replies (.fragReassemble (xs ++ r :: ys)) s' (.err e (.num (num r 4))) ∧
    ∃ u, exec (.rasmPush r) t = .next u ∧ u.results = t.results ++ [.err e (.num (num r 4))] ∧
      u.rasm.st = .error ∧ u.rasm.err = code

/-! ## The framer -/

/-- PKT_FRAME (R141, R142): the packet, and the two errors in their order. -/
def Obligations.PktFrameWrapsData : Prop :=
  Encodes 0x07#8 (fun o => .pktFrame o.fst o.snd o.seq) ∧ ∀ (i t : Byte) (p : List Byte) (s : State),
    (i.toNat < 1 ∨ 127 < i.toNat → Replies (.pktFrame i t p) s (.err .badArgument (.num i.toNat))) ∧
    (1 ≤ i.toNat → i.toNat ≤ 127 → t ∉ sevenTypes → Replies (.pktFrame i t p) s (.err .badArgument (.num t.toNat))) ∧
    (1 ≤ i.toNat → i.toNat ≤ 127 → t ∈ sevenTypes → Replies (.pktFrame i t p) s (.ok (.seq (packetBytes i t p))))

/-- PKT_UNFRAME (R143) and the order of its checks (R144). -/
def Obligations.PktUnframeOpensPacket : Prop :=
  Encodes 0x08#8 (fun o => .pktUnframe o.seq) ∧ ∀ (b : List Byte) (s : State),
    Replies (.pktUnframe b) s
      (if b.length < 6 then .err .short (.num b.length)
       else if b.getD 0 0#8 ≠ 0x54#8 ∨ b.getD 1 0#8 ≠ 0x53#8 then .err .badStart (.two (b.getD 0 0#8) (b.getD 1 0#8))
       else if b.getD (b.length - 2) 0#8 ≠ 0x4E#8 ∨ b.getD (b.length - 1) 0#8 ≠ 0x45#8 then
         .err .badEnd (.two (b.getD (b.length - 2) 0#8) (b.getD (b.length - 1) 0#8))
       else .ok (.packet (b.getD 2 0#8) (b.getD 3 0#8) ((b.drop 4).take (b.length - 6))))

/-- Framing and unframing round trip, and so do DATA_PACK and DATA_UNPACK (R149). -/
def Obligations.UnframeOfFrameIsIdentity : Prop :=
  (∀ (i t : Byte) (p : List Byte) (s s' : State), 1 ≤ i.toNat → i.toNat ≤ 127 → t ∈ sevenTypes →
    ∃ b, Replies (.pktFrame i t p) s (.ok (.seq b)) ∧ Replies (.pktUnframe b) s' (.ok (.packet i t p))) ∧
  (∀ (f : Byte) (q : List Byte) (s s' : State),
    ∃ b, Replies (.dataPack f q) s (.ok (.seq b)) ∧ Replies (.dataUnpack b) s' (.ok (.data f q)))

/-- Corruption of any single marker byte is detected (R150). -/
def Obligations.CorruptedMarkerIsDetected : Prop :=
  ∀ (i t v : Byte) (p : List Byte) (j : Nat) (s : State), v ≠ (packetBytes i t p).getD j 0#8 →
    (j < 2 → ∃ x y, Replies (.pktUnframe ((packetBytes i t p).set j v)) s (.err .badStart (.two x y))) ∧
    (p.length + 4 ≤ j → j < p.length + 6 →
      ∃ x y, Replies (.pktUnframe ((packetBytes i t p).set j v)) s (.err .badEnd (.two x y)))

/-- A framed packet is six bytes longer than its data and can be split exactly when the data has at most 834 bytes
(R145). -/
def Obligations.FramedPacketFitsWhenDataFits : Prop :=
  ∀ (i t k : Byte) (p : List Byte) (s s' : State), 1 ≤ i.toNat → i.toNat ≤ 127 → t ∈ sevenTypes →
    1 ≤ k.toNat → k.toNat ≤ 15 →
    ∃ b, Replies (.pktFrame i t p) s (.ok (.seq b)) ∧ b.length = p.length + 6 ∧
      ((∃ reps, Replies (.fragSplit b k) s' (.ok (.reports reps))) ↔ p.length ≤ 834)

/-- DATA_PACK (R146) and DATA_UNPACK (R147): the values, the error on empty data (the spec's decision D24), and what
NEC_DECODE makes of the empty rest of one byte. -/
def Obligations.DataPayloadPacksAndOpens : Prop :=
  Encodes 0x09#8 (fun o => .dataPack o.fst o.seq) ∧ Encodes 0x0A#8 (fun o => .dataUnpack o.seq) ∧
  (∀ (f : Byte) (q : List Byte) (s : State), Replies (.dataPack f q) s (.ok (.seq ([f] ++ q)))) ∧
  (∀ s : State, Replies (.dataUnpack []) s (.err .noFreqIndex (.num 0))) ∧
  (∀ (p : List Byte) (s : State), p ≠ [] → Replies (.dataUnpack p) s (.ok (.data (p.getD 0 0#8) (p.drop 1)))) ∧
  (∀ (f : Byte) (s s' : State), Replies (.dataUnpack [f]) s (.ok (.data f [])) ∧
    Replies (.necDecode []) s' (.err .invalidLeader (.num 0)))

/-! ## The NEC codec -/

/-- The tick counts (R172). -/
def Obligations.NominalDurationsInTicks : Prop :=
  (∀ n, ticksOf n = (n + 16) / 32) ∧ ticksOf 18000 = 563 ∧ ticksOf 9000 = 281 ∧ ticksOf 4500 = 141 ∧
    ticksOf 1125 = 35 ∧ ticksOf 3375 = 105

/-- Unit splitting (R174): full units first, the remainder last, no zero unit, one polarity, summing to the interval. -/
def Obligations.TimingUnitsCarryInterval : Prop :=
  ∀ (mark : Bool) (t : Nat), 1 ≤ t →
    (timingUnits mark t).length = (t + 126) / 127 ∧
    (∀ j, j < t / 127 → (timingUnits mark t)[j]? = some (if mark then 0xFF#8 else 0x7F#8)) ∧
    (∀ u ∈ timingUnits mark t, u.getLsbD 7 = mark ∧ 1 ≤ u.toNat % 128) ∧
    ((timingUnits mark t).map (fun u => u.toNat % 128)).sum = t

/-- NEC_ENCODE's output (R176), with the frame bits of R170 and the total duration. -/
def Obligations.NecEncodeOutputShape : Prop :=
  ∀ (a c : Byte) (s : State), ∃ bs : List Byte, Replies (.necEncode a c) s (.ok (.seq bs)) ∧ bs.length = 73 ∧
    bs.take 8 = [0xFF#8, 0xFF#8, 0xFF#8, 0xFF#8, 0xB7#8, 0x7F#8, 0x7F#8, 0x1B#8] ∧
    (∀ k, k < 32 → bs[8 + 2 * k]? = some 0xA3#8 ∧ bs[9 + 2 * k]? = some (if frameBit a c k then 0x69#8 else 0x23#8)) ∧
    bs[72]? = some 0xA3#8 ∧ (bs.map (fun u => u.toNat % 128)).sum = 4239

/-- The runs of a sequence (R178): the units with D not 0 fall into groups of one polarity, neighbouring groups differ,
and each run is a group with its ticks summed. -/
def Obligations.RunsMergeUnitsOfOnePolarity : Prop :=
  ∀ q : List Byte, ∃ gs : List (Bool × List Byte),
    gs.flatMap (·.2) = q.filter (fun u => u.toNat % 128 ≠ 0) ∧
    (∀ g ∈ gs, g.2 ≠ [] ∧ ∀ u ∈ g.2, u.getLsbD 7 = g.1) ∧
    (∀ j g h, gs[j]? = some g → gs[j + 1]? = some h → h.1 ≠ g.1) ∧
    runs q = gs.map (fun g => ⟨g.1, (g.2.map (fun u => u.toNat % 128)).sum⟩)

/-- The windows for TOL = 1/4 in ticks (R181), and that the two space windows are disjoint. -/
def Obligations.WindowsInTicks : Prop :=
  ∀ t : Nat,
    (inwin Config.tol t 18000 = true ↔ 422 ≤ t ∧ t ≤ 703) ∧ (inwin Config.tol t 9000 = true ↔ 211 ≤ t ∧ t ≤ 351) ∧
    (inwin Config.tol t 4500 = true ↔ 106 ≤ t ∧ t ≤ 175) ∧ (inwin Config.tol t 1125 = true ↔ 27 ≤ t ∧ t ≤ 43) ∧
    ¬ (inwin Config.tol t 9000 = true ∧ inwin Config.tol t 4500 = true)

/-- NEC_DECODE decides on the runs as the pseudocode of R183 indexes them, at TOL = 1/4 (R8), and is pure. -/
def Obligations.NecDecodeFollowsPseudocode : Prop :=
  Encodes 0x02#8 (fun o => .necDecode o.seq) ∧ ∀ (q : List Byte) (s : State), Replies (.necDecode q) s (decodeByRule ((runs q).dropWhile (fun r => r.mark = false)))

/-- Decoding an encoded frame gives the address and command back (R188), and whatever follows the frame is ignored
(R187). -/
def Obligations.DecodeOfEncodedFrame : Prop :=
  ∀ (a c : Byte) (s s' : State), ∃ bs, Replies (.necEncode a c) s (.ok (.seq bs)) ∧
    ∀ tail : List Byte, Replies (.necDecode (bs ++ tail)) s' (.ok (.frame a c))

/-- What each prefix of an encoded frame decodes to (R189). -/
def Obligations.TruncatedFrameDecodesByLength : Prop :=
  ∀ (a c : Byte) (s s' : State), ∃ bs, Replies (.necEncode a c) s (.ok (.seq bs)) ∧ ∀ n : Nat,
    (n ≤ 3 → Replies (.necDecode (bs.take n)) s' (.err .invalidLeader (.num 0))) ∧
    (4 ≤ n → n ≤ 71 → Replies (.necDecode (bs.take n)) s' (.err .truncated (.num ((n - 8) / 2)))) ∧
    (72 ≤ n → Replies (.necDecode (bs.take n)) s' (.ok (.frame a c)))

/-- A repeat code decodes to Repeat for every mark, space and mark within the three windows (R186, R181). -/
def Obligations.RepeatCodeIsRecognised : Prop :=
  ∀ (m p b : Nat) (s : State), 422 ≤ m → m ≤ 703 → 106 ≤ p → p ≤ 175 → 27 ≤ b → b ≤ 43 →
    Replies (.necDecode (timingUnits true m ++ timingUnits false p ++ timingUnits true b)) s (.ok .repeatCode)

/-- Leading space units and zero-tick units anywhere leave the decode result alone (R178, R179). -/
def Obligations.IdleAndZeroUnitsAreSkipped : Prop :=
  ∀ (x y : List Byte) (u : Byte) (s : State) (r : Result),
    (u.toNat % 128 = 0 → Replies (.necDecode (x ++ y)) s r → Replies (.necDecode (x ++ u :: y)) s r) ∧
    ((∀ v ∈ x, v.getLsbD 7 = false) → Replies (.necDecode y) s r → Replies (.necDecode (x ++ y)) s r)

/-! ## The bytes of the wire formats -/

/-- A timing byte reads as its polarity and its duration in ticks and microseconds (R65), and all 256 are legal (R66).
That a byte of a format is read by a step is the model's choice, log 6. -/
def Obligations.TimingBytesRead : Prop :=
  (∀ (d : BitVec 7) (s : State), Replies (.tbyteMark d) s (.ok (.timing true d.toNat (16 * d.toNat)))) ∧
  (∀ (d : BitVec 7) (s : State), Replies (.tbyteSpace d) s (.ok (.timing false d.toNat (16 * d.toNat)))) ∧
  (∀ (w : Byte) (o : Operands), ∃ i, decode ⟨.timing, w, o⟩ = .ok i ∧
    ∀ s : State, Replies i s (.ok (.timing (w.getLsbD 7) (w.toNat % 128) (16 * (w.toNat % 128)))))

/-- The command-type bytes and the report id bytes read as R148 and R68 say. That a step reads one is the model's
choice, log 6. -/
def Obligations.CommandTypeAndReportIdBytesRead : Prop :=
  ∀ (s : State) (o : Operands),
    Replies .ctVersion s (.ok (.cmdType .version)) ∧ decode ⟨.cmdType, 0x56#8, o⟩ = .ok .ctVersion ∧
    Replies .ctIdleMode s (.ok (.cmdType .idleMode)) ∧ decode ⟨.cmdType, 0x4C#8, o⟩ = .ok .ctIdleMode ∧
    Replies .ctSendMode s (.ok (.cmdType .sendMode)) ∧ decode ⟨.cmdType, 0x53#8, o⟩ = .ok .ctSendMode ∧
    Replies .ctRecvMode s (.ok (.cmdType .recvMode)) ∧ decode ⟨.cmdType, 0x52#8, o⟩ = .ok .ctRecvMode ∧
    Replies .ctData s (.ok (.cmdType .data)) ∧ decode ⟨.cmdType, 0x44#8, o⟩ = .ok .ctData ∧
    Replies .ctOutput s (.ok (.cmdType .output)) ∧ decode ⟨.cmdType, 0x4F#8, o⟩ = .ok .ctOutput ∧
    Replies .ctCancel s (.ok (.cmdType .cancel)) ∧ decode ⟨.cmdType, 0x43#8, o⟩ = .ok .ctCancel ∧
    Replies .rptidOutbound s (.ok (.direction .outbound)) ∧ decode ⟨.reportId, 0x02#8, o⟩ = .ok .rptidOutbound ∧
    Replies .rptidInbound s (.ok (.direction .inbound)) ∧ decode ⟨.reportId, 0x01#8, o⟩ = .ok .rptidInbound ∧
    ∀ w : Byte, w ∉ sevenTypes → cmdTypeOf w = .unknown w

/-! ## The pseudo-operations -/

/-- Sending an NEC frame by tx.nec and receiving its reports by rx.nec in a block that is IDLE gives the frame back (R81,
with inbound DATA laid out as R147 assumes). -/
def Obligations.ReceiveOfSentNecFrame : Prop :=
  ∀ (f a c : Byte) (s s' : State), s'.rasm.st = .idle →
    ∃ reps u v, txNec f a c s = .done reps u ∧ reps.length = 2 ∧ rxNec true reps s' = .done (.frame a c) v

/-- tx.cmd with a known type and data that fits gives reports that reassemble to the framed packet under the next command
id and carry the next packet index (R81). -/
def Obligations.SentCommandReassembles : Prop :=
  ∀ (t : Byte) (d : List Byte) (s s' : State), t ∈ sevenTypes → d.length ≤ 834 →
    ∃ reps u i, txCmd t d s = .done reps u ∧ i.toNat = s.cmdSeq.toNat % 127 + 1 ∧
      u.cmdSeq.toNat = i.toNat ∧ u.pktSeq.toNat = s.pktSeq.toNat % 15 + 1 ∧
      (∀ r ∈ reps, num r 2 = u.pktSeq.toNat) ∧
      Replies (.fragReassemble reps) s' (.ok (.seq (packetBytes i t d)))
end

