-- ==== Sys2Proof/Laws/State.lean ====
section
/-! SUPPORT. One lemma per field per update of the state, and what an answer is. -/

namespace Sys2Proof.Machine

@[simp] theorem State.answer_rasm (r : Result) (s : State) : (s.answer r).rasm = s.rasm := rfl
@[simp] theorem State.answer_pktSeq (r : Result) (s : State) : (s.answer r).pktSeq = s.pktSeq := rfl
@[simp] theorem State.answer_cmdSeq (r : Result) (s : State) : (s.answer r).cmdSeq = s.cmdSeq := rfl
@[simp] theorem State.answer_program (r : Result) (s : State) : (s.answer r).program = s.program := rfl
@[simp] theorem State.answer_results (r : Result) (s : State) : (s.answer r).results = s.results ++ [r] := rfl

@[simp] theorem Rasm.noProgress_st (g : Rasm) : g.noProgress.st = g.st := rfl
@[simp] theorem Rasm.noProgress_pkt (g : Rasm) : g.noProgress.pkt = 0#8 := rfl
@[simp] theorem Rasm.noProgress_cnt (g : Rasm) : g.noProgress.cnt = 0#4 := rfl
@[simp] theorem Rasm.noProgress_next (g : Rasm) : g.noProgress.next = 0#5 := rfl
@[simp] theorem Rasm.noProgress_len (g : Rasm) : g.noProgress.len = 0#10 := rfl
@[simp] theorem Rasm.noProgress_err (g : Rasm) : g.noProgress.err = g.err := rfl
@[simp] theorem Rasm.noProgress_buf (g : Rasm) : g.noProgress.buf = g.buf := rfl
@[simp] theorem Rasm.noProgress_era (g : Rasm) : g.noProgress.era = g.era := rfl

@[simp] theorem Rasm.latch_st (e : ErrorKind) (g : Rasm) : (g.latch e).st = .error := rfl
@[simp] theorem Rasm.latch_pkt (e : ErrorKind) (g : Rasm) : (g.latch e).pkt = 0#8 := rfl
@[simp] theorem Rasm.latch_cnt (e : ErrorKind) (g : Rasm) : (g.latch e).cnt = 0#4 := rfl
@[simp] theorem Rasm.latch_next (e : ErrorKind) (g : Rasm) : (g.latch e).next = 0#5 := rfl
@[simp] theorem Rasm.latch_len (e : ErrorKind) (g : Rasm) : (g.latch e).len = 0#10 := rfl
@[simp] theorem Rasm.latch_err (e : ErrorKind) (g : Rasm) : (g.latch e).err = e.code := rfl
@[simp] theorem Rasm.latch_buf (e : ErrorKind) (g : Rasm) : (g.latch e).buf = g.buf := rfl
@[simp] theorem Rasm.latch_era (e : ErrorKind) (g : Rasm) : (g.latch e).era = g.era := rfl

@[simp] theorem Rasm.clear_st (g : Rasm) : g.clear.st = .idle := rfl
@[simp] theorem Rasm.clear_pkt (g : Rasm) : g.clear.pkt = 0#8 := rfl
@[simp] theorem Rasm.clear_cnt (g : Rasm) : g.clear.cnt = 0#4 := rfl
@[simp] theorem Rasm.clear_next (g : Rasm) : g.clear.next = 0#5 := rfl
@[simp] theorem Rasm.clear_len (g : Rasm) : g.clear.len = 0#10 := rfl
@[simp] theorem Rasm.clear_err (g : Rasm) : g.clear.err = 0#8 := rfl
@[simp] theorem Rasm.clear_buf (g : Rasm) : g.clear.buf = g.buf := rfl
@[simp] theorem Rasm.clear_era (g : Rasm) : g.clear.era = g.era := rfl

@[simp] theorem Rasm.taken_st (g : Rasm) : g.taken.st = .idle := rfl
@[simp] theorem Rasm.taken_pkt (g : Rasm) : g.taken.pkt = 0#8 := rfl
@[simp] theorem Rasm.taken_cnt (g : Rasm) : g.taken.cnt = 0#4 := rfl
@[simp] theorem Rasm.taken_next (g : Rasm) : g.taken.next = 0#5 := rfl
@[simp] theorem Rasm.taken_len (g : Rasm) : g.taken.len = 0#10 := rfl
@[simp] theorem Rasm.taken_err (g : Rasm) : g.taken.err = g.err := rfl
@[simp] theorem Rasm.taken_buf (g : Rasm) : g.taken.buf = g.buf := rfl
@[simp] theorem Rasm.taken_era (g : Rasm) : g.taken.era = g.era := rfl

@[simp] theorem Rasm.restart_st (g : Rasm) : g.restart.st = .idle := rfl
@[simp] theorem Rasm.restart_pkt (g : Rasm) : g.restart.pkt = 0#8 := rfl
@[simp] theorem Rasm.restart_cnt (g : Rasm) : g.restart.cnt = 0#4 := rfl
@[simp] theorem Rasm.restart_next (g : Rasm) : g.restart.next = 0#5 := rfl
@[simp] theorem Rasm.restart_len (g : Rasm) : g.restart.len = 0#10 := rfl
@[simp] theorem Rasm.restart_err (g : Rasm) : g.restart.err = 0#8 := rfl
@[simp] theorem Rasm.restart_buf (g : Rasm) : g.restart.buf = [] := rfl
@[simp] theorem Rasm.restart_era (g : Rasm) : g.restart.era = g.era + 1 := rfl

@[simp] theorem Rasm.reset_st : Rasm.reset.st = .idle := rfl
@[simp] theorem Rasm.reset_buf : Rasm.reset.buf = [] := rfl

@[simp] theorem State.withFetchWord_rasm (s : State) (n w : Nat) : (s.withFetchWord n w).rasm = s.rasm := rfl
@[simp] theorem State.withFetchWord_pktSeq (s : State) (n w : Nat) : (s.withFetchWord n w).pktSeq = s.pktSeq := rfl
@[simp] theorem State.withFetchWord_cmdSeq (s : State) (n w : Nat) : (s.withFetchWord n w).cmdSeq = s.cmdSeq := rfl
@[simp] theorem State.withFetchWord_results (s : State) (n w : Nat) : (s.withFetchWord n w).results = s.results := rfl
@[simp] theorem State.withFetchWord_program (s : State) (n w : Nat) :
    (s.withFetchWord n w).program = tableIssue n w :: s.program := rfl

/-- Ending the program touches the program alone, and keeps the overlapping issues at its head. -/
theorem State.endOnError_eq (i : Issue) (s : State) :
    s.endOnError i = s ∨ s.endOnError i = { s with program := s.program.takeWhile Issue.overlaps } := by
  unfold State.endOnError
  split
  · exact .inr rfl
  · exact .inl rfl

/-- An overlapping issue that is next stays next. -/
theorem State.endOnError_head {i j : Issue} {s : State} {rest : List Issue} (hp : s.program = j :: rest)
    (hj : j.overlaps = true) : ∃ rest', (s.endOnError i).program = j :: rest' := by
  obtain h | h := State.endOnError_eq i s
  · exact ⟨rest, by rw [h, hp]⟩
  · exact ⟨rest.takeWhile Issue.overlaps, by simp [h, hp, hj]⟩

@[simp] theorem State.endOnError_rasm (i : Issue) (s : State) : (s.endOnError i).rasm = s.rasm := by
  obtain h | h := State.endOnError_eq i s <;> rw [h]
@[simp] theorem State.endOnError_pktSeq (i : Issue) (s : State) : (s.endOnError i).pktSeq = s.pktSeq := by
  obtain h | h := State.endOnError_eq i s <;> rw [h]
@[simp] theorem State.endOnError_cmdSeq (i : Issue) (s : State) : (s.endOnError i).cmdSeq = s.cmdSeq := by
  obtain h | h := State.endOnError_eq i s <;> rw [h]
@[simp] theorem State.endOnError_results (i : Issue) (s : State) : (s.endOnError i).results = s.results := by
  obtain h | h := State.endOnError_eq i s <;> rw [h]

/-- A reply is a next state with one more result. -/
@[simp] theorem State.reply_eq (r : Result) (s : State) : s.reply r = .next (s.answer r) := rfl

/-- An error raised is a reply: the machine goes on. -/
@[simp] theorem State.raise_eq (e : ErrorKind) (info : Info) (s : State) :
    s.raise e info = .next (s.answer (.err e info)) := rfl

end Sys2Proof.Machine
end

