-- ==== Sys2Proof/Laws/Memory.lean ====
section
/-! SUPPORT. What the operations over RBUF do: read after write, frame, and the canonical form. -/

namespace Sys2Proof.Machine

@[simp] theorem Memory.written_nil (a : Nat) : Memory.written a [] = none := rfl

/-- A written byte reads back. -/
@[simp] theorem Memory.written_write_same (a : Nat) (v : Byte) (m : Memory) : (m.write a v).written a = some v := by
  induction m with
  | nil => simp [Memory.write, Memory.written]
  | cons c m ih =>
    obtain ⟨b, w⟩ := c
    simp only [Memory.write]
    split
    · simp [Memory.written]
    · split
      · simp [Memory.written]
      · next h => simp [Memory.written, h, ih]

/-- A write leaves every other offset alone. -/
theorem Memory.written_write_of_ne {a b : Nat} (v : Byte) (m : Memory) (h : b ≠ a) :
    (m.write a v).written b = m.written b := by
  induction m with
  | nil => simp [Memory.write, Memory.written, h]
  | cons c m ih =>
    obtain ⟨x, w⟩ := c
    simp only [Memory.write]
    split
    · simp [Memory.written, h]
    · split
      · next hx => subst hx; simp [Memory.written, h]
      · simp [Memory.written, ih]

/-- The offsets a write lists. -/
theorem Memory.mem_write {a : Nat} {v : Byte} {m : Memory} {c : Host.Cell} (h : c ∈ m.write a v) :
    c = (a, v) ∨ c ∈ m := by
  induction m with
  | nil => exact .inl (by simpa [Memory.write] using h)
  | cons x m ih =>
    obtain ⟨b, w⟩ := x
    simp only [Memory.write] at h
    split at h
    · simpa using h
    · split at h
      · rcases List.mem_cons.1 h with h | h
        · exact .inl h
        · exact .inr (List.mem_cons_of_mem _ h)
      · rcases List.mem_cons.1 h with h | h
        · exact .inr (h ▸ List.mem_cons_self)
        · exact (ih h).imp id (List.mem_cons_of_mem _)

/-- A write keeps the canonical form. -/
theorem Memory.wf_write (a : Nat) (v : Byte) {m : Memory} (h : m.wf) : (m.write a v).wf := by
  induction m with
  | nil => simp [Memory.write, Memory.wf]
  | cons c m ih =>
    obtain ⟨b, w⟩ := c
    obtain ⟨hb, hm⟩ := List.pairwise_cons.1 h
    simp only [Memory.write]
    split
    · next hab =>
      refine List.pairwise_cons.2 ⟨fun x hx => ?_, h⟩
      rcases List.mem_cons.1 hx with rfl | hx
      · exact hab
      · exact hab.trans (hb x hx)
    · split
      · next hab => subst hab; exact List.pairwise_cons.2 ⟨hb, hm⟩
      · refine List.pairwise_cons.2 ⟨fun x hx => ?_, ih hm⟩
        rcases Memory.mem_write hx with rfl | hx
        · show b < a
          omega
        · exact hb x hx

/-- Writing several bytes leaves every offset below them alone. -/
theorem Memory.written_writeAll_of_lt {vs : List Byte} {off a : Nat} (m : Memory) (h : a < off) :
    (m.writeAll off vs).written a = m.written a := by
  induction vs generalizing off m with
  | nil => rfl
  | cons v vs ih => rw [Memory.writeAll, ih _ (by omega), Memory.written_write_of_ne _ _ (by omega)]

/-- Writing several bytes leaves every offset from their end on alone. -/
theorem Memory.written_writeAll_of_ge {vs : List Byte} {off a : Nat} (m : Memory) (h : off + vs.length ≤ a) :
    (m.writeAll off vs).written a = m.written a := by
  induction vs generalizing off m with
  | nil => rfl
  | cons v vs ih =>
    simp only [List.length_cons] at h
    rw [Memory.writeAll, ih _ (by omega), Memory.written_write_of_ne _ _ (by omega)]

/-- Several written bytes read back. -/
theorem Memory.written_writeAll {vs : List Byte} {off j : Nat} (m : Memory) (h : j < vs.length) :
    (m.writeAll off vs).written (off + j) = vs[j]? := by
  induction vs generalizing off m j with
  | nil => simp at h
  | cons v vs ih =>
    rw [Memory.writeAll]
    cases j with
    | zero => rw [Memory.written_writeAll_of_lt _ (by omega)]; simp
    | succ j =>
      rw [show off + (j + 1) = off + 1 + j by omega, ih _ (by simpa using h)]
      simp

/-- Writing several bytes keeps the canonical form. -/
theorem Memory.wf_writeAll (off : Nat) (vs : List Byte) {m : Memory} (h : m.wf) : (m.writeAll off vs).wf := by
  induction vs generalizing off m with
  | nil => exact h
  | cons v vs ih => exact ih _ (Memory.wf_write _ _ h)

/-- The offsets listed after writing several bytes. -/
theorem Memory.mem_writeAll {vs : List Byte} {off : Nat} {m : Memory} {c : Host.Cell} (h : c ∈ m.writeAll off vs) :
    c ∈ m ∨ (off ≤ c.1 ∧ c.1 < off + vs.length) := by
  induction vs generalizing off m with
  | nil => exact .inl h
  | cons v vs ih =>
    simp only [List.length_cons]
    rcases ih h with h | h
    · rcases Memory.mem_write h with rfl | h
      · exact .inr ⟨Nat.le_refl _, by show off < _; omega⟩
      · exact .inl h
    · exact .inr (by omega)

/-- A written offset reads as the byte written. -/
theorem Memory.read_of_written {era a : Nat} {m : Memory} {v : Byte} (h : m.written a = some v) : m.read era a = v := by
  simp [Memory.read, h]

/-- An offset that nothing has written reads as the free value. -/
theorem Memory.read_of_unwritten {era a : Nat} {m : Memory} (h : m.written a = none) :
    m.read era a = Config.rbufFree era a := by
  simp [Memory.read, h, Memory.unlisted]

/-- A written byte reads back. -/
@[simp] theorem Memory.read_write_same (era a : Nat) (v : Byte) (m : Memory) : (m.write a v).read era a = v :=
  Memory.read_of_written (Memory.written_write_same a v m)

/-- A write leaves every other byte alone. -/
theorem Memory.read_write_of_ne {a b : Nat} (era : Nat) (v : Byte) (m : Memory) (h : b ≠ a) :
    (m.write a v).read era b = m.read era b := by
  simp only [Memory.read, Memory.written_write_of_ne v m h]

/-- Several written bytes read back. -/
theorem Memory.read_writeAll {vs : List Byte} {off j : Nat} (era : Nat) (m : Memory) (h : j < vs.length) :
    vs[j]? = some ((m.writeAll off vs).read era (off + j)) := by
  have hw := Memory.written_writeAll (off := off) m h
  rw [List.getElem?_eq_getElem h] at hw ⊢
  rw [Memory.read_of_written hw]

/-- Writing several bytes leaves every byte outside them alone. -/
theorem Memory.read_writeAll_outside {vs : List Byte} {off a : Nat} (era : Nat) (m : Memory)
    (h : a < off ∨ off + vs.length ≤ a) : (m.writeAll off vs).read era a = m.read era a := by
  simp only [Memory.read]
  rcases h with h | h
  · rw [Memory.written_writeAll_of_lt m h]
  · rw [Memory.written_writeAll_of_ge m h]

@[simp] theorem Memory.readAll_length (era off n : Nat) (m : Memory) : (m.readAll era off n).length = n := by
  induction n generalizing off with
  | zero => rfl
  | succ n ih => simp [Memory.readAll, ih]

/-- Byte j of several bytes read is the byte at its offset. -/
theorem Memory.readAll_getElem? {era off n j : Nat} (m : Memory) (h : j < n) :
    (m.readAll era off n)[j]? = some (m.read era (off + j)) := by
  induction n generalizing off j with
  | zero => omega
  | succ n ih =>
    cases j with
    | zero => simp [Memory.readAll]
    | succ j => simp [Memory.readAll, ih (off := off + 1) (j := j) (by omega), Nat.add_assoc, Nat.add_comm 1 j]

end Sys2Proof.Machine
end

