-- ==== Sys2Proof/Laws/Nec.lean ====
section
/-! SUPPORT. What timing units and runs do (R65, R173, R174, R178). -/

namespace Sys2Proof.Machine

/-- The duration field is the byte modulo 128 (R65). -/
theorem duration_eq (u : Byte) : duration u = u.toNat % 128 := by
  simp [duration, BitVec.extractLsb'_toNat]

theorem polarity_timingUnit (m : Bool) {t : Nat} (h : t ≤ 127) : polarity (timingUnit m t) = m := by
  have key : ∀ m : Bool, ∀ t : Fin 128, polarity (timingUnit m t.val) = m := by decide +kernel
  exact key m ⟨t, by omega⟩

theorem duration_timingUnit (m : Bool) {t : Nat} (h : t ≤ 127) : duration (timingUnit m t) = t := by
  have key : ∀ m : Bool, ∀ t : Fin 128, duration (timingUnit m t.val) = t.val := by decide +kernel
  exact key m ⟨t, by omega⟩

@[simp] theorem runs_nil : runs [] = [] := rfl

/-- A zero-tick unit is dropped. -/
theorem runs_cons_zero {u : Byte} (q : List Byte) (h : duration u = 0) : runs (u :: q) = runs q := by
  simp [runs, h]

/-- Any other unit joins the run behind it or starts one. -/
theorem runs_cons {u : Byte} (q : List Byte) (h : duration u ≠ 0) : runs (u :: q) = consUnit u (runs q) := by
  simp [runs, h]

/-- A run of the polarity m stands first. -/
abbrev headMark (m : Bool) (rs : List Run) : Prop := ∃ r rest, rs = r :: rest ∧ r.mark = m

/-- Units of one interval, in front of a run of their own polarity or of another. -/
theorem runs_replicate_append (m : Bool) {t : Nat} (n : Nat) (q : List Byte) (h0 : 1 ≤ t) (h : t ≤ 127)
    {ticks : Nat} {rest : List Run} (hq : runs q = ⟨m, ticks⟩ :: rest) :
    runs (List.replicate n (timingUnit m t) ++ q) = ⟨m, n * t + ticks⟩ :: rest := by
  induction n with
  | zero => simpa using hq
  | succ n ih =>
    have hd : duration (timingUnit m t) ≠ 0 := by rw [duration_timingUnit m h]; omega
    rw [List.replicate_succ, List.cons_append, runs_cons _ hd, ih]
    simp only [consUnit, polarity_timingUnit m h, duration_timingUnit m h, if_true]
    rw [Nat.succ_mul, Nat.add_comm (n * t) t, Nat.add_assoc]

/-- One unit in front of no run of its own polarity starts a run. -/
theorem runs_unit_cons (m : Bool) {t : Nat} (q : List Byte) (h0 : 1 ≤ t) (h : t ≤ 127) (hq : ¬ headMark m (runs q)) :
    runs (timingUnit m t :: q) = ⟨m, t⟩ :: runs q := by
  have hd : duration (timingUnit m t) ≠ 0 := by rw [duration_timingUnit m h]; omega
  rw [runs_cons _ hd]
  cases hr : runs q with
  | nil => simp [consUnit, polarity_timingUnit m h, duration_timingUnit m h]
  | cons r rest =>
    have hm : r.mark ≠ m := fun e => hq ⟨r, rest, hr, e⟩
    simp [consUnit, polarity_timingUnit m h, duration_timingUnit m h, hm]

/-- The units of an interval are one run of its ticks, where no run of their polarity follows (R174, R178). -/
theorem runs_timingUnits_append (m : Bool) {t : Nat} (q : List Byte) (h0 : 1 ≤ t) (hq : ¬ headMark m (runs q)) :
    runs (timingUnits m t ++ q) = ⟨m, t⟩ :: runs q := by
  have hdiv : t / 127 * 127 + t % 127 = t := by omega
  have hlt : t % 127 < 127 := Nat.mod_lt _ (by omega)
  unfold timingUnits
  simp only [Config.unitMax]
  by_cases hr : t % 127 = 0
  · obtain ⟨n, hn⟩ : ∃ n, t / 127 = n + 1 := ⟨t / 127 - 1, by omega⟩
    rw [if_neg (by simpa using hr), List.append_nil, hn, List.replicate_succ', List.append_assoc]
    have h1 := runs_unit_cons m q (t := 127) (by omega) (by omega) hq
    rw [show [timingUnit m 127] ++ q = timingUnit m 127 :: q from rfl,
      runs_replicate_append m (t := 127) n _ (by omega) (by omega) h1]
    congr 2
    omega
  · rw [if_pos (by simpa using hr), List.append_assoc]
    have h1 := runs_unit_cons m q (t := t % 127) (by omega) (by omega) hq
    rw [show [timingUnit m (t % 127)] ++ q = timingUnit m (t % 127) :: q from rfl,
      runs_replicate_append m (t := 127) _ _ (by omega) (by omega) h1]
    congr 2

end Sys2Proof.Machine
end

