-- ==== Sys2Proof/Laws/Ops.lean ====
section
/-! SUPPORT. One lemma for each shared operation: everything it can do. The provers cite these instead of unfolding. -/

namespace Sys2Proof.Machine

/-- A MemWrite that succeeds stays within RBUF and writes exactly its bytes. -/
theorem memWrite_ok {off : Nat} {v : List Byte} {m m' : Memory} :
    memWrite off v m = .ok m' ↔ off + v.length ≤ 840 ∧ m' = m.writeAll off v := by
  simp only [memWrite, Config.maxPacket]
  split
  · next h => simp [h, eq_comm]
  · next h => simp [h]

/-- MemWrite keeps the canonical form and the bounds of RBUF. -/
theorem memWrite_wf {off : Nat} {v : List Byte} {m m' : Memory} (h : memWrite off v m = .ok m') (hm : m.wf) : m'.wf := by
  obtain ⟨-, rfl⟩ := memWrite_ok.1 h
  exact Memory.wf_writeAll off v hm

theorem memWrite_inRange {off : Nat} {v : List Byte} {m m' : Memory} (h : memWrite off v m = .ok m')
    (hm : ∀ c ∈ m, c.1 < 840) : ∀ c ∈ m', c.1 < 840 := by
  obtain ⟨hl, rfl⟩ := memWrite_ok.1 h
  intro c hc
  rcases Memory.mem_writeAll hc with hc | hc
  · exact hm c hc
  · omega

/-- RBUF is in canonical form after reset. -/
theorem State.reset_buf_wf : State.reset.rasm.buf.wf := by decide

/-- A MemRead that succeeds stays within RBUF and returns the bytes there. -/
theorem memRead_ok {era off n : Nat} {m : Memory} {v : List Byte} :
    memRead era off n m = .ok v ↔ off + n ≤ 840 ∧ v = m.readAll era off n := by
  simp only [memRead, Config.maxPacket]
  split
  · next h => simp [h, eq_comm]
  · next h => simp [h]

/-- A MemRead that does not succeed would pass the end of RBUF. -/
theorem memRead_error {era off n : Nat} {m : Memory} {f : Fault} :
    memRead era off n m = .error f ↔ 840 < off + n ∧ f = .rbufRange := by
  simp only [memRead, Config.maxPacket]
  split
  · next h => simp; omega
  · next h => simp; omega

/-- What a valid header says (R105). -/
theorem hdrOk_iff (r : Report) :
    hdrOk r = true ↔ 3 ≤ (fragSize r).toNat ∧ (fragSize r).toNat ≤ 59 ∧ 1 ≤ (fragCount r).toNat ∧
      (fragCount r).toNat ≤ 15 ∧ 1 ≤ (fragIdx r).toNat ∧ (fragIdx r).toNat ≤ (fragCount r).toNat := by
  simp [hdrOk, Config.maxFrags]

theorem reportShaped_iff (r : Report) : reportShaped r = true ↔ r.length = 61 := by
  simp [reportShaped, Config.reportLen]

/-- A well-shaped report with a valid header carries exactly fragSize − 3 payload bytes (R106). -/
theorem payload_length {r : Report} (hl : r.length = 61) (hh : hdrOk r = true) :
    (payload r).length = payloadLen r := by
  rw [hdrOk_iff] at hh
  simp only [payload, slice, payloadLen, Config.fragHdrLen, Config.fragSizeBias, List.length_take, List.length_drop]
  omega

theorem payloadLen_le {r : Report} (hh : hdrOk r = true) : payloadLen r ≤ 56 := by
  rw [hdrOk_iff] at hh
  simp only [payloadLen, Config.fragSizeBias]
  omega

/-- A violation is a FragmentationError. -/
theorem Rasm.violation_isFragmentation {r : Report} {g : Rasm} {e : ErrorKind} (h : g.violation r = some e) :
    e.isFragmentation = true := by
  unfold Rasm.violation at h
  repeat' split at h
  all_goals cases h
  all_goals rfl

/-- What holds of a report that meets no violation: a valid header, and the index and count the registers expect. -/
theorem Rasm.violation_none {r : Report} {g : Rasm} (h : g.violation r = none) :
    hdrOk r = true ∧ (g.st = .idle → (fragIdx r).toNat = 1) ∧
      (g.st ≠ .idle → packetIdx r = g.pkt ∧ (fragCount r).toNat = g.cnt.toNat ∧ (fragIdx r).toNat = g.next.toNat) := by
  unfold Rasm.violation at h
  split at h
  · simp at h
  next hh =>
  split at h
  · next hi =>
    split at h
    · simp at h
    · next h1 => exact ⟨by simpa using hh, fun _ => by omega, fun hn => absurd hi hn⟩
  · next hi =>
    split at h
    · cases h
    next hp =>
    split at h
    · cases h
    split at h
    · cases h
    split at h
    · cases h
    exact ⟨by simpa using hh, fun hn => absurd hn hi, fun _ => ⟨not_not.1 hp, by omega, by omega⟩⟩

/-- The registers after a report is accepted (R109): b is what RBUF becomes. -/
def Rasm.accepted (r : Report) (g : Rasm) (b : Memory) : Rasm :=
  let cnt : BitVec 4 := if g.st = .idle then BitVec.ofNat 4 (fragCount r).toNat else g.cnt
  { st := if (fragIdx r).toNat = cnt.toNat then .complete else .active
    pkt := if g.st = .idle then packetIdx r else g.pkt
    cnt := cnt
    next := BitVec.ofNat 5 ((fragIdx r).toNat + 1)
    len := BitVec.ofNat 10 (g.storeAt + payloadLen r)
    err := g.err
    buf := b
    era := g.era }

/-- The result of an accepted report (R109). -/
def Rasm.acceptValue (r : Report) (g : Rasm) : Value :=
  let cnt : BitVec 4 := if g.st = .idle then BitVec.ofNat 4 (fragCount r).toNat else g.cnt
  if (fragIdx r).toNat = cnt.toNat then .complete (g.storeAt + payloadLen r) else .more ((fragIdx r).toNat + 1)

/-- Accepting a report: its bytes are stored at `storeAt`, or the access lies beyond RBUF. -/
theorem Rasm.accept_eq (r : Report) (g : Rasm) :
    g.accept r = if g.storeAt + (payload r).length ≤ 840
      then .ok (g.accepted r (g.buf.writeAll g.storeAt (payload r)), .ok (g.acceptValue r)) else .error .rbufRange := by
  by_cases h : g.storeAt + (payload r).length ≤ 840
  · have hm : memWrite g.storeAt (payload r) g.buf = .ok (g.buf.writeAll g.storeAt (payload r)) :=
      memWrite_ok.2 ⟨h, rfl⟩
    simp [Rasm.accept, hm, h, Rasm.accepted, Rasm.acceptValue]
  · have hm : memWrite g.storeAt (payload r) g.buf = .error .rbufRange := by simp [memWrite, Config.maxPacket, h]
    simp [Rasm.accept, hm, h]

/-- Everything RASM_PUSH can do over the registers (R109): refuse a malformed report, refuse in ERROR or COMPLETE, latch,
store, or run beyond RBUF. -/
theorem Rasm.push_cases (r : Report) (g : Rasm) :
    (r.length ≠ 61 ∧ g.push r = .ok (g, .err .badArgument (.num r.length))) ∨
    (r.length = 61 ∧ g.st = .error ∧ g.push r = .ok (g, .err .locked (.num g.err.toNat))) ∨
    (r.length = 61 ∧ g.st = .complete ∧ g.push r = .ok (g, .err .busy (.num g.len.toNat))) ∨
    (∃ e, r.length = 61 ∧ (g.st = .idle ∨ g.st = .active) ∧ g.violation r = some e ∧
      g.push r = .ok (g.latch e, .err e (.num (fragIdx r).toNat))) ∨
    (r.length = 61 ∧ (g.st = .idle ∨ g.st = .active) ∧ g.violation r = none ∧ g.push r = g.accept r) := by
  by_cases hl : r.length = 61
  · have hs : reportShaped r = true := (reportShaped_iff r).2 hl
    have body (hst : g.st = .idle ∨ g.st = .active)
        (hp : g.push r = match g.violation r with
          | some e => .ok (g.latch e, .err e (.num (fragIdx r).toNat))
          | none => g.accept r) :
        (∃ e, r.length = 61 ∧ (g.st = .idle ∨ g.st = .active) ∧ g.violation r = some e ∧
          g.push r = .ok (g.latch e, .err e (.num (fragIdx r).toNat))) ∨
        (r.length = 61 ∧ (g.st = .idle ∨ g.st = .active) ∧ g.violation r = none ∧ g.push r = g.accept r) := by
      cases hv : g.violation r with
      | none => exact .inr ⟨hl, hst, rfl, by rw [hp, hv]⟩
      | some e => exact .inl ⟨e, hl, hst, rfl, by rw [hp, hv]⟩
    cases hst : g.st with
    | idle => exact .inr (.inr (.inr (by simpa [hst] using body (.inl hst) (by simp only [Rasm.push, hs, hst]; rfl))))
    | active => exact .inr (.inr (.inr (by simpa [hst] using body (.inr hst) (by simp only [Rasm.push, hs, hst]; rfl))))
    | complete => exact .inr (.inr (.inl ⟨hl, rfl, by simp [Rasm.push, hs, hst]⟩))
    | error => exact .inr (.inl ⟨hl, rfl, by simp [Rasm.push, hs, hst]⟩)
  · have hs : reportShaped r = false := by simp [reportShaped, Config.reportLen, hl]
    exact .inl ⟨hl, by simp [Rasm.push, hs]⟩

/-- Everything RASM_TAKE can do over the registers (R111). -/
theorem Rasm.take_cases (g : Rasm) :
    (g.st ≠ .complete ∧ g.take = .ok (g, .err .notReady (.num g.st.code))) ∨
    (g.st = .complete ∧ g.len.toNat ≤ 840 ∧
      g.take = .ok (g.taken, .ok (.seq (g.buf.readAll g.era 0 g.len.toNat)))) ∨
    (g.st = .complete ∧ 840 < g.len.toNat ∧ g.take = .error .rbufRange) := by
  by_cases h : g.st = .complete
  · by_cases hl : g.len.toNat ≤ 840
    · exact .inr (.inl ⟨h, hl, by simp [Rasm.take, h, memRead, hl]⟩)
    · exact .inr (.inr ⟨h, by omega, by simp [Rasm.take, h, memRead, hl]⟩)
  · exact .inl ⟨h, by simp [Rasm.take, h]⟩

/-- An operation over the reassembly registers ends in a next state exactly where its registers do not fault. -/
theorem State.commit_next {x : Except Fault (Rasm × Result)} {s t : State} :
    s.commit x = .next t ↔ ∃ g r, x = .ok (g, r) ∧ t = { s with rasm := g, results := s.results ++ [r] } := by
  cases x with
  | error f => simp [State.commit]
  | ok y => obtain ⟨g, r⟩ := y; simp [State.commit, State.answer, eq_comm]

@[simp] theorem State.commit_ok (g : Rasm) (r : Result) (s : State) :
    s.commit (.ok (g, r)) = .next { s with rasm := g, results := s.results ++ [r] } := rfl

/-- Closing an issue changes a next state's program alone. -/
theorem closeIssue_next {i : Issue} {o : Host.Outcome State Fault Refusal} {t : State} :
    closeIssue i o = .next t ↔ ∃ u, o = .next u ∧ t = u.endOnError i := by
  cases o <;> simp [closeIssue, eq_comm]

/-- Everything a step can do: idle, refuse an overlapping issue, run the decoded instruction, or read a wire byte. -/
theorem step_cases (s : State) :
    (s.program = [] ∧ step s = .next s) ∨
    (∃ i rest, s.program = i :: rest ∧ i.overlaps = true ∧ step s = .refused .concurrentIssue) ∨
    (∃ i rest ins, s.program = i :: rest ∧ i.overlaps = false ∧ decode i.code = .ok ins ∧
      step s = closeIssue i (exec ins { s with program := rest })) ∨
    (∃ i rest rej, s.program = i :: rest ∧ i.overlaps = false ∧ decode i.code = .error rej ∧
      step s = closeIssue i (.next (State.answer (.ok (rejectReading rej)) { s with program := rest }))) := by
  cases hp : s.program with
  | nil => exact .inl ⟨rfl, by simp [step, State.fetch, hp]⟩
  | cons i rest =>
    cases ho : i.overlaps with
    | true => exact .inr (.inl ⟨i, rest, rfl, ho, by simp [step, State.fetch, hp, ho]⟩)
    | false =>
      cases hd : decode i.code with
      | ok ins => exact .inr (.inr (.inl ⟨i, rest, ins, rfl, ho, hd, by simp [step, State.fetch, hp, ho, hd]⟩))
      | error rej => exact .inr (.inr (.inr ⟨i, rest, rej, rfl, ho, hd, by simp [step, State.fetch, hp, ho, hd]⟩))

end Sys2Proof.Machine
end

