-- ==== Sys2Proof/Laws/PerInstr.lean ====
section
/-! SUPPORT. A family of statements about instructions as syntax, one lemma per constructor. -/

namespace Sys2Proof.Laws.OpWord

/-- Among the well-formed instructions encoded by an op word, ILLEGAL_RSV alone has RSV not zero (R61, R64). -/
def Statement (i : Instr) : Prop :=
  i.wf = true → (encode i).format = .op →
    ((encode i).word.extractLsb' 4 4 = 0#4 ↔ ∀ rsv opc, i ≠ .illegalRsv rsv opc)

theorem reset : Statement .reset := by simp [Statement, encode, opWord]
theorem necEncode (a c : Byte) : Statement (.necEncode a c) := by simp [Statement, encode, opWord]
theorem necDecode (s : List Byte) : Statement (.necDecode s) := by simp [Statement, encode, opWord]
theorem fragSplit (p : List Byte) (k : Byte) : Statement (.fragSplit p k) := by simp [Statement, encode, opWord]
theorem rasmPush (r : Report) : Statement (.rasmPush r) := by simp [Statement, encode, opWord]
theorem rasmTake : Statement .rasmTake := by simp [Statement, encode, opWord]
theorem rasmClear : Statement .rasmClear := by simp [Statement, encode, opWord]
theorem pktFrame (i t : Byte) (p : List Byte) : Statement (.pktFrame i t p) := by simp [Statement, encode, opWord]
theorem pktUnframe (b : List Byte) : Statement (.pktUnframe b) := by simp [Statement, encode, opWord]
theorem dataPack (f : Byte) (s : List Byte) : Statement (.dataPack f s) := by simp [Statement, encode, opWord]
theorem dataUnpack (p : List Byte) : Statement (.dataUnpack p) := by simp [Statement, encode, opWord]
theorem seqNextPkt : Statement .seqNextPkt := by simp [Statement, encode, opWord]
theorem seqNextCmd : Statement .seqNextCmd := by simp [Statement, encode, opWord]
theorem rptParse (r : Report) : Statement (.rptParse r) := by simp [Statement, encode, opWord]
theorem fragReassemble (rs : List Report) : Statement (.fragReassemble rs) := by simp [Statement, encode, opWord]
theorem illegal : Statement .illegal := by simp [Statement, encode, opWord]

theorem illegalRsv (rsv opc : BitVec 4) : Statement (.illegalRsv rsv opc) := by
  have h : ∀ rsv opc : BitVec 4, (rsv ++ opc).extractLsb' 4 4 = rsv := by decide
  simp [Statement, encode, opWord, Instr.wf, h]

theorem tbyteMark (d : BitVec 7) : Statement (.tbyteMark d) := by simp [Statement, encode, wireByte]
theorem tbyteSpace (d : BitVec 7) : Statement (.tbyteSpace d) := by simp [Statement, encode, wireByte]
theorem ctVersion : Statement .ctVersion := by simp [Statement, encode, wireByte]
theorem ctIdleMode : Statement .ctIdleMode := by simp [Statement, encode, wireByte]
theorem ctSendMode : Statement .ctSendMode := by simp [Statement, encode, wireByte]
theorem ctRecvMode : Statement .ctRecvMode := by simp [Statement, encode, wireByte]
theorem ctData : Statement .ctData := by simp [Statement, encode, wireByte]
theorem ctOutput : Statement .ctOutput := by simp [Statement, encode, wireByte]
theorem ctCancel : Statement .ctCancel := by simp [Statement, encode, wireByte]
theorem rptidOutbound : Statement .rptidOutbound := by simp [Statement, encode, wireByte]
theorem rptidInbound : Statement .rptidInbound := by simp [Statement, encode, wireByte]

end Sys2Proof.Laws.OpWord
end

