-- ==== Sys2Proof/Tests/Slice0.lean ====
section
/-! SUPPORT. The model's own tests: well-formedness, words written out from the spec's encodings, vectors of
spec/95_test_vectors.md, and a witness for the hypotheses of every statement that has some. -/

open Sys2Proof Sys2Proof.Machine Sys2Proof.Claims

namespace Sys2Proof.Tests

/-! ## Well-formedness -/

/-- ILLEGAL_RSV with RSV zero is ill formed (R64). -/
theorem test_wf_refuses_rsv_zero : (Instr.illegalRsv 0#4 7#4).wf = false := by decide
theorem test_wf_accepts_rsv_one : (Instr.illegalRsv 1#4 0#4).wf = true := by decide

/-! ## Words written out bit by bit (R61, R62, R64, R65, R68, R73) -/

/-- Operand fields that all differ. -/
def ops : Operands := ⟨0x12#8, 0x34#8, [0x56#8], [0x78#8], [[0x9A#8]]⟩

theorem test_decode_reset : decode ⟨.op, 0b00000000#8, ops⟩ = .ok .reset := by decide
theorem test_decode_necEncode : decode ⟨.op, 0b00000001#8, ops⟩ = .ok (.necEncode 0x12#8 0x34#8) := by decide
theorem test_decode_necDecode : decode ⟨.op, 0b00000010#8, ops⟩ = .ok (.necDecode [0x56#8]) := by decide
theorem test_decode_fragSplit : decode ⟨.op, 0b00000011#8, ops⟩ = .ok (.fragSplit [0x56#8] 0x12#8) := by decide
theorem test_decode_rasmPush : decode ⟨.op, 0b00000100#8, ops⟩ = .ok (.rasmPush [0x78#8]) := by decide
theorem test_decode_rasmTake : decode ⟨.op, 0b00000101#8, ops⟩ = .ok .rasmTake := by decide
theorem test_decode_rasmClear : decode ⟨.op, 0b00000110#8, ops⟩ = .ok .rasmClear := by decide
theorem test_decode_pktFrame : decode ⟨.op, 0b00000111#8, ops⟩ = .ok (.pktFrame 0x12#8 0x34#8 [0x56#8]) := by decide
theorem test_decode_pktUnframe : decode ⟨.op, 0b00001000#8, ops⟩ = .ok (.pktUnframe [0x56#8]) := by decide
theorem test_decode_dataPack : decode ⟨.op, 0b00001001#8, ops⟩ = .ok (.dataPack 0x12#8 [0x56#8]) := by decide
theorem test_decode_dataUnpack : decode ⟨.op, 0b00001010#8, ops⟩ = .ok (.dataUnpack [0x56#8]) := by decide
theorem test_decode_seqNextPkt : decode ⟨.op, 0b00001011#8, ops⟩ = .ok .seqNextPkt := by decide
theorem test_decode_seqNextCmd : decode ⟨.op, 0b00001100#8, ops⟩ = .ok .seqNextCmd := by decide
theorem test_decode_rptParse : decode ⟨.op, 0b00001101#8, ops⟩ = .ok (.rptParse [0x78#8]) := by decide
theorem test_decode_fragReassemble : decode ⟨.op, 0b00001110#8, ops⟩ = .ok (.fragReassemble [[0x9A#8]]) := by decide
theorem test_decode_illegal : decode ⟨.op, 0b00001111#8, ops⟩ = .ok .illegal := by decide
theorem test_decode_illegalRsv : decode ⟨.op, 0b00011011#8, ops⟩ = .ok (.illegalRsv 0b0001#4 0b1011#4) := by decide
theorem test_decode_tbyteMark : decode ⟨.timing, 0b10100011#8, ops⟩ = .ok (.tbyteMark 35#7) := by decide
theorem test_decode_tbyteSpace : decode ⟨.timing, 0b01101001#8, ops⟩ = .ok (.tbyteSpace 105#7) := by decide
theorem test_decode_ctVersion : decode ⟨.cmdType, 0b01010110#8, ops⟩ = .ok .ctVersion := by decide
theorem test_decode_ctIdleMode : decode ⟨.cmdType, 0b01001100#8, ops⟩ = .ok .ctIdleMode := by decide
theorem test_decode_ctSendMode : decode ⟨.cmdType, 0b01010011#8, ops⟩ = .ok .ctSendMode := by decide
theorem test_decode_ctRecvMode : decode ⟨.cmdType, 0b01010010#8, ops⟩ = .ok .ctRecvMode := by decide
theorem test_decode_ctData : decode ⟨.cmdType, 0b01000100#8, ops⟩ = .ok .ctData := by decide
theorem test_decode_ctOutput : decode ⟨.cmdType, 0b01001111#8, ops⟩ = .ok .ctOutput := by decide
theorem test_decode_ctCancel : decode ⟨.cmdType, 0b01000011#8, ops⟩ = .ok .ctCancel := by decide
theorem test_decode_rptidOutbound : decode ⟨.reportId, 0b00000010#8, ops⟩ = .ok .rptidOutbound := by decide
theorem test_decode_rptidInbound : decode ⟨.reportId, 0b00000001#8, ops⟩ = .ok .rptidInbound := by decide
theorem test_decode_rejects_cmdType : decode ⟨.cmdType, 0x54#8, ops⟩ = .error (.unknownCmdType 0x54#8) := by decide
theorem test_decode_rejects_reportId : decode ⟨.reportId, 0x7E#8, ops⟩ = .error (.unassignedReportId 0x7E#8) := by decide

/-- Every table word that is an op word runs as the first instruction after reset. -/
theorem test_table_words_run : ∀ w : Fin 256,
    ((nextOf (step (State.reset.withFetchWord 8 w))).map (·.results.length)) = some 1 := by decide +kernel

/-! ## Vectors of 95_test_vectors.md -/

/-- The last result of an operation. -/
def answerOf (i : Instr) (s : State) : Option Result := (nextOf (exec i s)).bind (·.results.getLast?)

/-- ST/PKT/CNT/NEXT/LEN/ERR after an operation. -/
def regsOf (i : Instr) (s : State) : Option (RasmSt × Byte × BitVec 4 × BitVec 5 × BitVec 10 × Byte) :=
  (nextOf (exec i s)).map (fun t => (t.rasm.st, t.rasm.pkt, t.rasm.cnt, t.rasm.next, t.rasm.len, t.rasm.err))

/-- A report with the given header and payload, zero-padded. -/
def rpt (fs pi fc fi : Byte) (d : List Byte) : Report := [0x01#8, fs, pi, fc, fi] ++ d ++ zeros (56 - d.length)

/-- The report s1 of section 2.4. -/
def s1 : Report := rpt 9#8 1#8 1#8 1#8 [0x54#8, 0x53#8, 0x01#8, 0x53#8, 0x4E#8, 0x45#8]

/-- A state with the given reassembly registers. -/
def withRasm (g : Rasm) : State := { State.reset with rasm := g }

/-- ACTIVE, fragment 2 of 2 expected, three bytes held. -/
def active : State := withRasm ⟨.active, 5#8, 2#4, 2#5, 3#10, 0#8, [(0, 1#8), (1, 2#8), (2, 3#8)], 0⟩

/-- ACTIVE, fragment 2 of 3 expected, three bytes held. -/
def activeOf3 : State := withRasm ⟨.active, 5#8, 3#4, 2#5, 3#10, 0#8, [(0, 1#8), (1, 2#8), (2, 3#8)], 0⟩

/-- COMPLETE, two bytes held. -/
def complete : State := withRasm ⟨.complete, 5#8, 1#4, 2#5, 2#10, 0#8, [(0, 0xAA#8), (1, 0xBB#8)], 0⟩

/-- ERROR, DuplicateIndex latched. -/
def locked : State := withRasm ⟨.error, 0#8, 0#4, 0#5, 0#10, 0x13#8, [], 0⟩

/-- V1. -/
def v1 : List Byte :=
  [0xFF#8, 0xFF#8, 0xFF#8, 0xFF#8, 0xB7#8, 0x7F#8, 0x7F#8, 0x1B#8]
    ++ (List.replicate 8 [0xA3#8, 0x23#8]).flatten ++ (List.replicate 16 [0xA3#8, 0x69#8]).flatten
    ++ (List.replicate 8 [0xA3#8, 0x23#8]).flatten ++ [0xA3#8]

theorem test_necEncode_v1 : answerOf (.necEncode 0x00#8 0xFF#8) State.reset = some (.ok (.seq v1)) := by decide +kernel
/-- V77 in part: the address bits of 0x04 are 00100000. -/
theorem test_necEncode_v77 : ((necEncode 0x04#8 0x08#8).drop 8).take 16 =
    [0xA3#8, 0x23#8, 0xA3#8, 0x23#8, 0xA3#8, 0x69#8, 0xA3#8, 0x23#8,
     0xA3#8, 0x23#8, 0xA3#8, 0x23#8, 0xA3#8, 0x23#8, 0xA3#8, 0x23#8] := by decide +kernel
/-- V82 and W7: a whole frame, and byte 25 changed from 69 to 23. -/
theorem test_necDecode_v82 : answerOf (.necDecode v1) State.reset = some (.ok (.frame 0x00#8 0xFF#8)) := by decide +kernel
theorem test_necDecode_w7 : answerOf (.necDecode (v1.set 25 0x23#8)) State.reset =
    some (.err .checksumMismatch (.four 0x00#8 0xFE#8 0xFF#8 0x00#8)) := by decide +kernel
/-- V10: headers of the two reports of 57 bytes. -/
theorem test_fragSplit_v10 : (splitReports (List.replicate 57 0xAA#8) 3#8).map (·.take 5) =
    [[0x02#8, 0x3B#8, 0x03#8, 0x02#8, 0x01#8], [0x02#8, 0x04#8, 0x03#8, 0x02#8, 0x02#8]] := by decide +kernel
/-- V16: the check of k comes first. -/
theorem test_fragSplit_v16 : answerOf (.fragSplit (zeros 900) 0#8) State.reset = some (.err .badArgument (.num 0)) := by
  decide +kernel
/-- V31: a single fragment. -/
theorem test_rasmPush_v31 : regsOf (.rasmPush s1) State.reset = some (.complete, 1#8, 1#4, 2#5, 6#10, 0#8) := by
  decide +kernel
/-- V34: a duplicate index latches 0x13. -/
theorem test_rasmPush_v34 : regsOf (.rasmPush (rpt 4#8 5#8 2#8 1#8 [1#8])) active =
    some (.error, 0#8, 0#4, 0#5, 0#10, 0x13#8) := by decide +kernel
theorem test_rasmTake_complete : answerOf .rasmTake complete = some (.ok (.seq [0xAA#8, 0xBB#8])) := by decide +kernel
/-- V34: NotReady with the code of ERROR. -/
theorem test_rasmTake_v34 : answerOf .rasmTake locked = some (.err .notReady (.num 3)) := by decide +kernel
/-- V34: clear lifts the latch. -/
theorem test_rasmClear_v34 : regsOf .rasmClear locked = some (.idle, 0#8, 0#4, 0#5, 0#10, 0#8) := by decide +kernel
/-- V53 and V56. -/
theorem test_pktFrame_v53 : answerOf (.pktFrame 1#8 0x53#8 []) State.reset =
    some (.ok (.seq [0x54#8, 0x53#8, 0x01#8, 0x53#8, 0x4E#8, 0x45#8])) := by decide +kernel
theorem test_pktFrame_v56 : answerOf (.pktFrame 5#8 0x54#8 []) State.reset = some (.err .badArgument (.num 0x54)) := by
  decide +kernel
/-- V57 and V68: the end marker is found by length. -/
theorem test_pktUnframe_v57 : answerOf (.pktUnframe [0x54#8, 0x53#8, 3#8, 0x56#8, 0x4E#8, 0x45#8, 0x4E#8, 0x45#8]) State.reset =
    some (.ok (.packet 3#8 0x56#8 [0x4E#8, 0x45#8])) := by decide +kernel
theorem test_pktUnframe_v68 : answerOf (.pktUnframe [0x54#8, 0x53#8, 5#8, 0x44#8, 0x4E#8, 0x45#8, 0x4E#8, 0x44#8]) State.reset =
    some (.err .badEnd (.two 0x4E#8 0x44#8)) := by decide +kernel
/-- V69 and V70. -/
theorem test_dataPack_v69 : answerOf (.dataPack 0xFF#8 [0xA3#8, 0x23#8]) State.reset =
    some (.ok (.seq [0xFF#8, 0xA3#8, 0x23#8])) := by decide +kernel
theorem test_dataUnpack_v70 : answerOf (.dataUnpack [7#8]) State.reset = some (.ok (.data 7#8 [])) := by decide +kernel
/-- V3 and V5: the counters wrap to 1. -/
theorem test_seqNextPkt_v3 : answerOf .seqNextPkt { State.reset with pktSeq := 15#4 } = some (.ok (.u8 1#8)) := by
  decide +kernel
theorem test_seqNextCmd_v5 : answerOf .seqNextCmd { State.reset with cmdSeq := 127#7 } = some (.ok (.u8 1#8)) := by
  decide +kernel
/-- V17 and V21. -/
theorem test_rptParse_v17 : answerOf (.rptParse s1) State.reset = some (.ok (.hdr
    ⟨0x01#8, 9#8, 1#8, 1#8, 1#8, true, [0x54#8, 0x53#8, 0x01#8, 0x53#8, 0x4E#8, 0x45#8]⟩)) := by decide +kernel
theorem test_rptParse_v21 : answerOf (.rptParse (s1.set 1 60#8)) State.reset =
    some (.ok (.hdr ⟨0x01#8, 60#8, 1#8, 1#8, 1#8, false, []⟩)) := by decide +kernel
/-- V48 and V45: surplus reports; a short fragment in front. -/
theorem test_fragReassemble_v48 : answerOf (.fragReassemble [s1, s1]) State.reset = some (.err .countMismatch (.num 1)) := by
  decide +kernel
theorem test_fragReassemble_v45 : answerOf (.fragReassemble
    [rpt 5#8 3#8 2#8 1#8 [1#8, 2#8], rpt 4#8 3#8 2#8 2#8 [3#8]]) State.reset = some (.ok (.seq [1#8, 2#8, 3#8])) := by
  decide +kernel
/-- V127. -/
theorem test_reset_v127 : (nextOf (exec .reset { locked with pktSeq := 7#4 })).map (fun t => (t.rasm, t.pktSeq)) =
    some ({ Rasm.reset with era := 1 }, 0#4) := by decide +kernel
/-- V126. -/
theorem test_illegalRsv_v126 : answerOf (.illegalRsv 8#4 4#4) locked = some (.err .illegalOp (.num 0x84)) := by decide +kernel
/-- R65: 0xB7 is a mark of 55 ticks, 880 µs. -/
theorem test_tbyteMark : answerOf (.tbyteMark 55#7) State.reset = some (.ok (.timing true 55 880)) := by decide +kernel
/-- U4, U9: a byte of RBUF that nothing has written is the free value, and RESET leaves new ones. -/
theorem test_rbuf_at_reset (a : Nat) : State.reset.rasm.byte a = Config.rbufFree 0 a := rfl
theorem test_rbuf_after_reset (a : Nat) :
    (nextOf (exec .reset complete)).map (fun t => t.rasm.byte a) = some (Config.rbufFree 1 a) := rfl
/-- The writes of one RBUF list keep the canonical form. -/
theorem test_memory_write_sorts : (Memory.write 1 5#8 [(0, 1#8), (2, 3#8)]) = [(0, 1#8), (1, 5#8), (2, 3#8)] := by decide

/-! ## Witnesses: a concrete state and operands for the hypotheses of each statement -/

/-- An issue of one operation, in series. -/
def issue (i : Instr) (stop : Bool) : Issue := ⟨encode i, false, stop⟩

/-- A state with one operation to issue. -/
def issuing (s : State) (i : Instr) (stop : Bool) : State := { s with program := [issue i stop] }

theorem witness_StepRunsDecodedIssue_ok :
    ∃ t, decode (issue .seqNextPkt true).code = .ok .seqNextPkt ∧ exec .seqNextPkt State.reset = .next t ∧
      t.results = [] ++ [.ok (.u8 1#8)] := ⟨_, rfl, rfl, rfl⟩
theorem witness_StepRunsDecodedIssue_err :
    ∃ t, decode (issue .rasmTake true).code = .ok .rasmTake ∧ exec .rasmTake State.reset = .next t ∧
      t.results = [] ++ [.err .notReady (.num 0)] := ⟨_, rfl, rfl, rfl⟩
/-- The fault's clause is met only outside the invariant. -/
theorem witness_StepRunsDecodedIssue_fault :
    exec .rasmTake (withRasm ⟨.complete, 1#8, 1#4, 2#5, 841#10, 0#8, [], 0⟩) = .fault .rbufRange := rfl
/-- The other fault of NoInstructionIsRefused: 785 bytes held, 56 more pushed. -/
theorem witness_NoInstructionIsRefused_push :
    exec (.rasmPush (rpt 59#8 5#8 15#8 15#8 (zeros 56))) (withRasm ⟨.active, 5#8, 15#4, 15#5, 785#10, 0#8, [], 0⟩) =
      .fault .rbufRange := rfl
theorem witness_IdleStepAndOverlappingIssue :
    State.reset.program = [] ∧ ({ issue .reset true with overlaps := true } : Issue).overlaps = true := by decide
/-- An error that ends the program, behind it an issue made too early: R220. -/
def overlapping : State := { State.reset with program := [issue .rasmTake true, { issue .reset true with overlaps := true }] }

theorem witness_OverlappingIssueIsRefusedNext :
    ∃ t, step overlapping = .next t ∧ t.results = [.err .notReady (.num 0)] := ⟨_, rfl, rfl⟩
theorem test_overlapping_issue_is_refused : (nextOf (step overlapping)).map step = some (.refused .concurrentIssue) :=
  rfl
theorem witness_WireByteOutsideTableIsRead :
    0x54#8 ∉ sevenTypes ∧ 0x00#8 ≠ 0x01#8 ∧ 0x03#8 ≠ 0x02#8 := by decide
theorem witness_DecodeOfEncodeIsIdentity : (Instr.illegalRsv 15#4 15#4).wf = true := by decide
theorem witness_IllegalOpWordsAnswerIllegalOp : 16 ≤ (0x10#8).toNat ∧ 16 ≤ (0xFF#8).toNat := by decide
theorem witness_StepKeepsInvariant :
    ∃ t, (issuing active (.rasmPush (rpt 4#8 5#8 2#8 2#8 [9#8])) true).Inv ∧
      step (issuing active (.rasmPush (rpt 4#8 5#8 2#8 2#8 [9#8])) true) = .next t := ⟨_, by decide, rfl⟩
theorem witness_StepNeverFaultsUnderInvariant : complete.Inv ∧ locked.Inv ∧ activeOf3.Inv :=
  ⟨by decide, by decide, by decide⟩
theorem witness_ErrorsWriteOnlyTheLatch_reply :
    ∃ t, exec .rasmTake locked = .next t ∧ t.results = locked.results ++ [.err .notReady (.num 3)] := ⟨_, rfl, rfl⟩
theorem witness_ErrorsWriteOnlyTheLatch_latch :
    ∃ t, exec (.rasmPush (zeros 61)) State.reset = .next t ∧
      t.results = State.reset.results ++ [.err .badHeader (.num 0)] := ⟨_, rfl, rfl⟩
theorem witness_OperationsReturnExactlyOneResult : ∃ t, exec (.dataPack 0#8 []) State.reset = .next t := ⟨_, rfl⟩
theorem witness_WritersOfReassemblyBuffer :
    ∃ t, exec .rasmClear complete = .next t ∧ (∀ r, Instr.rasmClear ≠ .rasmPush r) ∧ Instr.rasmClear ≠ .reset :=
  ⟨_, rfl, by simp, by simp⟩
theorem witness_PktSeqHoldsLastIssuedIndex :
    ∃ t, exec .rasmClear { State.reset with pktSeq := 5#4 } = .next t ∧ Instr.rasmClear ≠ .seqNextPkt := ⟨_, rfl, by simp⟩
theorem witness_CmdSeqHoldsLastIssuedId :
    ∃ t, exec .rasmClear { State.reset with cmdSeq := 9#7 } = .next t ∧ Instr.rasmClear ≠ .seqNextCmd := ⟨_, rfl, by simp⟩
theorem witness_WritersOfRasmErr_latch :
    ∃ t, exec (.rasmPush (zeros 61)) State.reset = .next t ∧ t.rasm.err ≠ State.reset.rasm.err := ⟨_, rfl, by decide⟩
theorem witness_WritersOfRasmErr_clear :
    ∃ t, exec .rasmClear locked = .next t ∧ t.rasm.err ≠ locked.rasm.err := ⟨_, rfl, by decide⟩
theorem witness_OperationsIgnoreResultsAndProgram : ∃ t, exec .seqNextCmd State.reset = .next t := ⟨_, rfl⟩

/-- `active` with other hidden bytes, written and free. -/
def activeHidden : State :=
  withRasm ⟨.active, 5#8, 2#4, 2#5, 3#10, 0#8, [(0, 1#8), (1, 2#8), (2, 3#8), (3, 0xEE#8)], 7⟩

theorem witness_HiddenBytesNeverInfluence :
    VisiblyEqual active activeHidden ∧ ∃ t, exec (.rasmPush (rpt 4#8 5#8 2#8 2#8 [9#8])) active = .next t :=
  ⟨⟨rfl, by decide⟩, _, rfl⟩
theorem witness_ConsecutivePacketIndicesDiffer :
    ∃ t u, exec .seqNextPkt { State.reset with pktSeq := 15#4 } = .next t ∧ exec .seqNextPkt t = .next u := ⟨_, _, rfl, rfl⟩
theorem witness_FragSplitFollowsRule :
    (0#8).toNat < 1 ∧ 15 < (16#8).toNat ∧ 1 ≤ (1#8).toNat ∧ (15#8).toNat ≤ 15 ∧ 840 < (zeros 841).length ∧
      (zeros 840).length ≤ 840 := by
  simp only [zeros, List.length_replicate]; decide
theorem witness_SplitReportsAreInOrder : 1 ≤ (15#8).toNat ∧ (15#8).toNat ≤ 15 ∧ ([] : List Byte).length ≤ 840 := by decide
theorem witness_RptParseReadsHeader :
    (zeros 60).length ≠ 61 ∧ s1.length = 61 ∧ hdrValid s1 ∧ hdrValid (s1.set 1 3#8) ∧ hdrValid (s1.set 1 59#8) ∧
      ¬ hdrValid (s1.set 1 2#8) ∧ ¬ hdrValid (s1.set 1 60#8) := by decide +kernel
theorem witness_RasmPushStoresAcceptedFragment_idle :
    s1.length = 61 ∧ State.reset.rasm.st = .idle ∧ firstViolation s1 State.reset.rasm = none ∧
      storeOffset State.reset.rasm + (num s1 1 - 3) ≤ 840 := by decide +kernel
theorem witness_RasmPushStoresAcceptedFragment_active :
    activeOf3.rasm.st = .active ∧ firstViolation (rpt 3#8 5#8 3#8 2#8 []) activeOf3.rasm = none ∧
      (rpt 3#8 5#8 3#8 2#8 []).length = 61 := by decide +kernel
/-- The fifteenth fragment of 56 bytes ends exactly at offset 840. -/
theorem witness_RasmPushStoresAcceptedFragment_full :
    firstViolation (rpt 59#8 5#8 15#8 15#8 (zeros 56)) ⟨.active, 5#8, 15#4, 15#5, 784#10, 0#8, [], 0⟩ = none ∧
      storeOffset ⟨.active, 5#8, 15#4, 15#5, 784#10, 0#8, [], 0⟩ + (num (rpt 59#8 5#8 15#8 15#8 (zeros 56)) 1 - 3) = 840 := by
  decide +kernel
theorem witness_RasmPushLatchesFirstViolation :
    firstViolation (s1.set 1 60#8) State.reset.rasm = some (.badHeader, 0x10#8) ∧
      firstViolation (rpt 4#8 5#8 2#8 2#8 []) State.reset.rasm = some (.indexGap, 0x14#8) ∧
      firstViolation (rpt 4#8 6#8 3#8 2#8 []) activeOf3.rasm = some (.packetIndexMismatch, 0x11#8) ∧
      firstViolation (rpt 4#8 5#8 4#8 2#8 []) activeOf3.rasm = some (.countMismatch, 0x12#8) ∧
      firstViolation (rpt 4#8 5#8 3#8 1#8 []) activeOf3.rasm = some (.duplicateIndex, 0x13#8) ∧
      firstViolation (rpt 4#8 5#8 3#8 3#8 []) activeOf3.rasm = some (.indexGap, 0x14#8) := by decide +kernel
theorem witness_RasmPushHoldsOff :
    (zeros 62).length ≠ 61 ∧ s1.length = 61 ∧ locked.rasm.st = .error ∧ complete.rasm.st = .complete := by decide +kernel
theorem witness_RasmTakeRemovesCompletedPacket :
    complete.rasm.st = .complete ∧ complete.rasm.len.toNat ≤ 840 ∧
      State.reset.rasm.st = .idle ∧ active.rasm.st = .active ∧ locked.rasm.st = .error := by decide
/-- The boundaries of its premise: a completed packet of no bytes (R111), and one of 840. -/
theorem witness_RasmTakeRemovesCompletedPacket_bounds :
    (0#10).toNat ≤ 840 ∧ (840#10).toNat = 840 := by decide

/-- Two reports of one packet in order. -/
def pair : List Report := [rpt 5#8 3#8 2#8 1#8 [1#8, 2#8], rpt 4#8 3#8 2#8 2#8 [3#8]]

theorem pair_inOrder : InOrder pair := by
  refine ⟨by simp [pair], fun j r h => ?_⟩
  match j with
  | 0 => obtain rfl : _ = r := by simpa [pair] using h
         decide +kernel
  | 1 => obtain rfl : _ = r := by simpa [pair] using h
         decide +kernel
  | j + 2 => simp [pair] at h

theorem witness_FragReassembleConcatenatesPayloads : InOrder pair := pair_inOrder
theorem witness_FragReassembleCountsReports :
    (∀ x ∈ [s1], x.length = 61) ∧ (zeros 60).length ≠ 61 ∧ InOrder ([pair.getD 0 []] ++ [pair.getD 1 []]) ∧
      (∀ x ∈ s1 :: [], x.length = 61) := ⟨by decide +kernel, by decide, pair_inOrder, by decide +kernel⟩
theorem witness_ReassembleOfSplitIsIdentity : (zeros 840).length ≤ 840 ∧ 1 ≤ (1#8).toNat ∧ (1#8).toNat ≤ 15 := by
  simp only [zeros, List.length_replicate]; decide
theorem witness_StreamingAgreesWithBatch :
    State.reset.rasm.st = .idle ∧ Replies (.fragReassemble pair) active (.ok (.seq [1#8, 2#8, 3#8])) := ⟨rfl, rfl⟩
theorem witness_StreamingFailsAsBatchFails :
    ∃ t, execAll ([pair.getD 0 []].map .rasmPush) State.reset = some t ∧ t.rasm.st = .active ∧
      firstViolation (pair.getD 0 []) t.rasm = some (.duplicateIndex, 0x13#8) ∧
      (∀ x ∈ [pair.getD 0 []] ++ pair.getD 0 [] :: [], x.length = 61) :=
  ⟨_, rfl, by decide +kernel, by decide +kernel, by decide +kernel⟩
theorem witness_PktFrameWrapsData :
    (0#8).toNat < 1 ∧ 127 < (128#8).toNat ∧ 1 ≤ (1#8).toNat ∧ (127#8).toNat ≤ 127 ∧ 0x54#8 ∉ sevenTypes ∧
      0x43#8 ∈ sevenTypes := by decide
theorem witness_UnframeOfFrameIsIdentity : 1 ≤ (127#8).toNat ∧ (127#8).toNat ≤ 127 ∧ 0x56#8 ∈ sevenTypes := by decide
theorem witness_CorruptedMarkerIsDetected :
    0x55#8 ≠ (packetBytes 1#8 0x53#8 []).getD 0 0#8 ∧ 0x52#8 ≠ (packetBytes 1#8 0x53#8 []).getD 1 0#8 ∧
      0x4D#8 ≠ (packetBytes 1#8 0x53#8 []).getD 4 0#8 ∧ 0x44#8 ≠ (packetBytes 1#8 0x53#8 []).getD 5 0#8 := by decide
theorem witness_FramedPacketFitsWhenDataFits :
    1 ≤ (1#8).toNat ∧ (1#8).toNat ≤ 127 ∧ 0x44#8 ∈ sevenTypes ∧ (15#8).toNat ≤ 15 := by decide
theorem witness_DataPayloadPacksAndOpens : ([0#8] : List Byte) ≠ [] := by decide
theorem witness_TimingUnitsCarryInterval : 1 ≤ 1 ∧ 0 < 127 / 127 ∧ 1 ≤ 563 := by decide
theorem witness_RepeatCodeIsRecognised : 422 ≤ 422 ∧ 703 ≤ 703 ∧ 106 ≤ 141 ∧ 141 ≤ 175 ∧ 27 ≤ 27 ∧ 43 ≤ 43 := by decide
theorem witness_IdleAndZeroUnitsAreSkipped :
    (0x80#8).toNat % 128 = 0 ∧ (0x7F#8).getLsbD 7 = false ∧
      Replies (.necDecode []) State.reset (.err .invalidLeader (.num 0)) := ⟨by decide, by decide, rfl⟩
theorem witness_TruncatedFrameDecodesByLength : 3 ≤ 3 ∧ 4 ≤ 4 ∧ 71 ≤ 71 ∧ 72 ≤ 72 := by decide
theorem witness_CommandTypeAndReportIdBytesRead : 0x00#8 ∉ sevenTypes := by decide
theorem witness_ReceiveOfSentNecFrame : State.reset.rasm.st = .idle := by decide
theorem witness_SentCommandReassembles : 0x44#8 ∈ sevenTypes ∧ (zeros 834).length ≤ 834 := by
  simp only [zeros, List.length_replicate]; decide

end Sys2Proof.Tests
end

section
/-! PROOFS. What exec keeps, what an issue's closing does, and the equations of a step. -/

namespace Sys2Proof.Machine

/-! ## The operations -/

@[simp] theorem exec_reset (s : State) :
    exec .reset s = .next ({ s with rasm := s.rasm.restart, pktSeq := 0#4, cmdSeq := 0#7 }.answer (.ok .unit)) := rfl
@[simp] theorem exec_rasmPush (r : Report) (s : State) : exec (.rasmPush r) s = s.commit (s.rasm.push r) := rfl
@[simp] theorem exec_rasmTake (s : State) : exec .rasmTake s = s.commit s.rasm.take := rfl
@[simp] theorem exec_rasmClear (s : State) :
    exec .rasmClear s = .next ({ s with rasm := s.rasm.clear }.answer (.ok .unit)) := rfl
@[simp] theorem exec_seqNextPkt (s : State) :
    exec .seqNextPkt s = .next ({ s with pktSeq := BitVec.ofNat 4 (seqNext Config.maxFrags s.pktSeq.toNat) }.answer
      (.ok (.u8 (BitVec.ofNat 8 (seqNext Config.maxFrags s.pktSeq.toNat))))) := rfl
@[simp] theorem exec_seqNextCmd (s : State) :
    exec .seqNextCmd s = .next ({ s with cmdSeq := BitVec.ofNat 7 (seqNext Config.maxCmdId s.cmdSeq.toNat) }.answer
      (.ok (.u8 (BitVec.ofNat 8 (seqNext Config.maxCmdId s.cmdSeq.toNat))))) := rfl

/-- FRAG_SPLIT answers the same in every state (R30). -/
theorem execFragSplit_reply (p : List Byte) (k : Byte) : ∃ r, ∀ s, execFragSplit p k s = s.reply r := by
  unfold execFragSplit
  split
  · exact ⟨_, fun _ => rfl⟩
  split <;> exact ⟨_, fun _ => rfl⟩

/-- RPT_PARSE answers the same in every state (R30). -/
theorem execRptParse_reply (r : Report) : ∃ x, ∀ s, execRptParse r s = s.reply x := by
  unfold execRptParse
  split <;> exact ⟨_, fun _ => rfl⟩

/-- PKT_FRAME answers the same in every state (R30). -/
theorem execPktFrame_reply (i t : Byte) (p : List Byte) : ∃ r, ∀ s, execPktFrame i t p s = s.reply r := by
  unfold execPktFrame
  split
  · exact ⟨_, fun _ => rfl⟩
  split <;> exact ⟨_, fun _ => rfl⟩

/-- DATA_UNPACK answers the same in every state (R30). -/
theorem execDataUnpack_reply (p : List Byte) : ∃ r, ∀ s, execDataUnpack p s = s.reply r := by
  cases p <;> exact ⟨_, fun _ => rfl⟩

/-- FRAG_REASSEMBLE works on registers of its own: it answers or faults the same in every state (R113). -/
theorem execFragReassemble_cases (rs : List Report) :
    (∃ r, batchResult rs = .ok r ∧ ∀ s, execFragReassemble rs s = s.reply r) ∨
    (∃ f, batchResult rs = .error f ∧ ∀ s, execFragReassemble rs s = .fault f) := by
  unfold execFragReassemble
  cases batchResult rs with
  | ok r => exact .inl ⟨r, rfl, fun _ => rfl⟩
  | error f => exact .inr ⟨f, rfl, fun _ => rfl⟩

/-- Six instructions read or write registers; every other one gives one answer in all states and writes none, but for a
batch that faults. -/
theorem exec_cases (i : Instr) :
    (∃ r, ∀ s, exec i s = s.reply r) ∨
    (∃ rs f, i = .fragReassemble rs ∧ batchResult rs = .error f ∧ ∀ s, exec i s = .fault f) ∨
    i = .reset ∨ (∃ r, i = .rasmPush r) ∨ i = .rasmTake ∨ i = .rasmClear ∨ i = .seqNextPkt ∨ i = .seqNextCmd := by
  cases i with
  | reset | rasmPush | rasmTake | rasmClear | seqNextPkt | seqNextCmd => simp
  | fragSplit p k => exact .inl (execFragSplit_reply p k)
  | rptParse r => exact .inl (execRptParse_reply r)
  | pktFrame i t p => exact .inl (execPktFrame_reply i t p)
  | dataUnpack p => exact .inl (execDataUnpack_reply p)
  | fragReassemble rs =>
    obtain ⟨r, -, h⟩ | ⟨f, hf, h⟩ := execFragReassemble_cases rs
    · exact .inl ⟨r, h⟩
    · exact .inr (.inl ⟨rs, f, rfl, hf, h⟩)
  | necEncode | necDecode | pktUnframe | dataPack | illegal | illegalRsv | tbyteMark | tbyteSpace | ctVersion
  | ctIdleMode | ctSendMode | ctRecvMode | ctData | ctOutput | ctCancel | rptidOutbound | rptidInbound =>
    exact .inl ⟨_, fun _ => rfl⟩

/-- An operation over the reassembly registers appends its one result and leaves the host's program alone. -/
theorem State.commit_results_program {x : Except Fault (Rasm × Result)} {s t : State} (h : s.commit x = .next t) :
    ∃ r, t.results = s.results ++ [r] ∧ t.program = s.program := by
  obtain ⟨g, r, -, rfl⟩ := State.commit_next.1 h
  exact ⟨r, rfl, rfl⟩

/-- An operation that ends in a next state appends its one result and leaves the host's program alone (R210, log 1). -/
theorem exec_results_program {i : Instr} {s t : State} (h : exec i s = .next t) :
    ∃ r, t.results = s.results ++ [r] ∧ t.program = s.program := by
  have ofAnswer {u : State} {r : Result} (hu : exec i s = .next (u.answer r)) (hr : u.results = s.results)
      (hp : u.program = s.program) : ∃ r, t.results = s.results ++ [r] ∧ t.program = s.program := by
    obtain rfl : u.answer r = t := by simpa [hu] using h
    exact ⟨r, by simp [hr], by simp [hp]⟩
  obtain ⟨r, hr⟩ | ⟨rs, f, -, -, hf⟩ | rfl | ⟨r, rfl⟩ | rfl | rfl | rfl | rfl := exec_cases i
  · exact ofAnswer (hr s) rfl rfl
  · simp [hf] at h
  · exact ofAnswer (exec_reset s) rfl rfl
  · exact State.commit_results_program (exec_rasmPush r s ▸ h)
  · exact State.commit_results_program (exec_rasmTake s ▸ h)
  · exact ofAnswer (exec_rasmClear s) rfl rfl
  · exact ofAnswer (exec_seqNextPkt s) rfl rfl
  · exact ofAnswer (exec_seqNextCmd s) rfl rfl

/-! ## Closing an issue (R80, R252) -/

/-- After an Ok result the host goes on. -/
theorem State.endOnError_of_ok {s : State} {rs : List Result} {v : Value} (h : s.results = rs ++ [.ok v]) (i : Issue) :
    s.endOnError i = s := by
  simp [State.endOnError, h, Result.isErr]

/-- After an error result the issue itself says whether the host goes on. -/
theorem State.endOnError_of_err {s : State} {rs : List Result} {e : ErrorKind} {info : Info}
    (h : s.results = rs ++ [.err e info]) (i : Issue) :
    s.endOnError i =
      if i.stopOnError = true then { s with program := s.program.takeWhile Issue.overlaps } else s := by
  simp [State.endOnError, h, Result.isErr]

/-! ## The equations of a step (R5) -/

theorem step_of_program_nil {s : State} (hp : s.program = []) : step s = .next s := by
  simp [step, State.fetch, hp]

theorem step_of_overlaps {s : State} {i : Issue} {rest : List Issue} (hp : s.program = i :: rest)
    (ho : i.overlaps = true) : step s = .refused .concurrentIssue := by
  simp [step, State.fetch, hp, ho]

theorem step_of_decode {s : State} {i : Issue} {rest : List Issue} {ins : Instr} (hp : s.program = i :: rest)
    (ho : i.overlaps = false) (hd : decode i.code = .ok ins) :
    step s = closeIssue i (exec ins { s with program := rest }) := by
  simp [step, State.fetch, hp, ho, hd]

end Sys2Proof.Machine

namespace Sys2Proof.Proofs

open Sys2Proof.Machine

/-- Settles O1: the step closes the issue over exec's outcome, and exec keeps the program, so that what is left of it
after an error are the overlapping issues behind this one. -/
theorem stepRunsDecodedIssue : Obligations.StepRunsDecodedIssue := by
  intro s i rest ins hp ho hd
  rw [step_of_decode hp ho hd]
  refine ⟨fun f hf => ?fault, fun t rs v ht hr => ?ok, fun t rs e info ht hr => ?err⟩
  case fault => rw [hf, closeIssue]
  case ok => rw [ht, closeIssue, State.endOnError_of_ok hr]
  case err =>
    obtain ⟨-, -, hprog⟩ := exec_results_program ht
    rw [ht, closeIssue, State.endOnError_of_err hr, hprog]

/-- Settles O2, by the step's equations for an empty program and for an overlapping issue. -/
theorem idleStepAndOverlappingIssue : Obligations.IdleStepAndOverlappingIssue :=
  ⟨fun _ hp => step_of_program_nil hp, fun _ _ _ hp ho => step_of_overlaps hp ho⟩

end Sys2Proof.Proofs
end

section
/-! PROOFS. Where exec ends and which registers it writes, R33's invariant, and the hidden bytes of RBUF (R34). -/

namespace Sys2Proof.Machine

/-! ## Where an operation ends -/

/-- The next states of exec: an answer alone, or one of the six operations that write registers. -/
theorem exec_next_cases {i : Instr} {s t : State} (h : exec i s = .next t) :
    (∃ x, t = s.answer x) ∨
    (i = .reset ∧ t = { s with rasm := s.rasm.restart, pktSeq := 0#4, cmdSeq := 0#7 }.answer (.ok .unit)) ∨
    (∃ r g x, i = .rasmPush r ∧ s.rasm.push r = .ok (g, x) ∧ t = { s with rasm := g }.answer x) ∨
    (∃ g x, i = .rasmTake ∧ s.rasm.take = .ok (g, x) ∧ t = { s with rasm := g }.answer x) ∨
    (i = .rasmClear ∧ t = { s with rasm := s.rasm.clear }.answer (.ok .unit)) ∨
    (i = .seqNextPkt ∧ ∃ n x, t = { s with pktSeq := n }.answer x) ∨
    (i = .seqNextCmd ∧ ∃ n x, t = { s with cmdSeq := n }.answer x) := by
  obtain ⟨x, hx⟩ | ⟨rs, f, -, -, hf⟩ | rfl | ⟨r, rfl⟩ | rfl | rfl | rfl | rfl := exec_cases i
  · exact .inl ⟨x, by simpa [hx] using h.symm⟩
  · simp [hf] at h
  · exact .inr (.inl ⟨rfl, by simpa using h.symm⟩)
  · obtain ⟨g, x, hg, ht⟩ := State.commit_next.1 (exec_rasmPush r s ▸ h)
    exact .inr (.inr (.inl ⟨r, g, x, rfl, hg, ht⟩))
  · obtain ⟨g, x, hg, ht⟩ := State.commit_next.1 (exec_rasmTake s ▸ h)
    exact .inr (.inr (.inr (.inl ⟨g, x, rfl, hg, ht⟩)))
  · exact .inr (.inr (.inr (.inr (.inl ⟨rfl, by simpa using h.symm⟩))))
  · exact .inr (.inr (.inr (.inr (.inr (.inl ⟨rfl, _, _, by simpa using h.symm⟩)))))
  · exact .inr (.inr (.inr (.inr (.inr (.inr ⟨rfl, _, _, by simpa using h.symm⟩)))))

/-- A sequence generator issues no value above its top (R100, R140). -/
theorem seqNext_le {top : Nat} (h : 0 < top) (v : Nat) : seqNext top v ≤ top := Nat.mod_lt v h

/-- The registers RASM_TAKE ends with (R111). -/
theorem Rasm.take_next {g g' : Rasm} {x : Result} (h : g.take = .ok (g', x)) :
    g' = g ∨ (g.st = .complete ∧ g' = g.taken) := by
  obtain ⟨-, hg⟩ | ⟨hst, -, hg⟩ | ⟨-, -, hg⟩ := g.take_cases <;> rw [hg] at h
  · obtain ⟨rfl, -⟩ : g = g' ∧ _ := by simpa using h
    exact .inl rfl
  · obtain ⟨rfl, -⟩ : g.taken = g' ∧ _ := by simpa using h
    exact .inr ⟨hst, rfl⟩
  · cases h

/-- The registers RASM_PUSH ends with (R109, R110): as before, latched, or with the fragment stored within RBUF. -/
theorem Rasm.push_next {r : Report} {g g' : Rasm} {x : Result} (h : g.push r = .ok (g', x)) :
    g' = g ∨ (∃ e, e.isFragmentation = true ∧ g' = g.latch e) ∨
    (r.length = 61 ∧ (g.st = .idle ∨ g.st = .active) ∧ g.violation r = none ∧
      g.storeAt + (payload r).length ≤ 840 ∧ g' = g.accepted r (g.buf.writeAll g.storeAt (payload r))) := by
  have unchanged {y : Result} (hg : g.push r = .ok (g, y)) : g' = g := by
    rw [hg] at h
    cases h
    rfl
  obtain ⟨-, hg⟩ | ⟨-, -, hg⟩ | ⟨-, -, hg⟩ | ⟨e, -, -, hv, hg⟩ | ⟨hl, hst, hv, hg⟩ := g.push_cases r
  · exact .inl (unchanged hg)
  · exact .inl (unchanged hg)
  · exact .inl (unchanged hg)
  · rw [hg] at h
    cases h
    exact .inr (.inl ⟨e, Rasm.violation_isFragmentation hv, rfl⟩)
  · rw [hg, Rasm.accept_eq] at h
    split at h
    · next hroom =>
      cases h
      exact .inr (.inr ⟨hl, hst, hv, hroom, rfl⟩)
    · cases h

/-- The codes of the FragmentationErrors are the values RASM_ERR takes in ERROR (R26, R211). -/
theorem ErrorKind.code_mem_latchCodes {e : ErrorKind} (h : e.isFragmentation = true) : e.code ∈ latchCodes := by
  revert h
  cases e <;> decide

/-! ## The equations of RASM_PUSH and RASM_TAKE (R109, R111) -/

theorem Rasm.push_of_length_ne {r : Report} (g : Rasm) (hl : r.length ≠ 61) :
    g.push r = .ok (g, .err .badArgument (.num r.length)) := by
  have hs : reportShaped r = false := by simpa using mt (reportShaped_iff r).1 hl
  simp [Rasm.push, hs]

theorem Rasm.push_of_error {r : Report} {g : Rasm} (hl : r.length = 61) (hst : g.st = .error) :
    g.push r = .ok (g, .err .locked (.num g.err.toNat)) := by
  simp [Rasm.push, (reportShaped_iff r).2 hl, hst]

theorem Rasm.push_of_complete {r : Report} {g : Rasm} (hl : r.length = 61) (hst : g.st = .complete) :
    g.push r = .ok (g, .err .busy (.num g.len.toNat)) := by
  simp [Rasm.push, (reportShaped_iff r).2 hl, hst]

theorem Rasm.push_of_violation {r : Report} {g : Rasm} {e : ErrorKind} (hl : r.length = 61)
    (hst : g.st = .idle ∨ g.st = .active) (hv : g.violation r = some e) :
    g.push r = .ok (g.latch e, .err e (.num (fragIdx r).toNat)) := by
  rcases hst with hst | hst <;> simp [Rasm.push, (reportShaped_iff r).2 hl, hst, hv]

theorem Rasm.push_of_no_violation {r : Report} {g : Rasm} (hl : r.length = 61)
    (hst : g.st = .idle ∨ g.st = .active) (hv : g.violation r = none) : g.push r = g.accept r := by
  rcases hst with hst | hst <;> simp [Rasm.push, (reportShaped_iff r).2 hl, hst, hv]

theorem Rasm.take_of_not_complete {g : Rasm} (hst : g.st ≠ .complete) :
    g.take = .ok (g, .err .notReady (.num g.st.code)) := by
  simp [Rasm.take, hst]

theorem Rasm.take_of_complete {g : Rasm} (hst : g.st = .complete) (hlen : g.len.toNat ≤ 840) :
    g.take = .ok (g.taken, .ok (.seq (g.buf.readAll g.era 0 g.len.toNat))) := by
  have hread : memRead g.era 0 g.len.toNat g.buf = .ok (g.buf.readAll g.era 0 g.len.toNat) :=
    memRead_ok.2 ⟨by omega, rfl⟩
  simp [Rasm.take, hst, hread]

/-- A fragment is stored within or at the end of the bytes held. -/
theorem Rasm.storeAt_le_len (g : Rasm) : g.storeAt ≤ g.len.toNat := by
  unfold Rasm.storeAt
  split <;> omega

/-! ## The registers after an accepted report (R109) -/

@[simp] theorem Rasm.accepted_err (r : Report) (g : Rasm) (b : Memory) : (g.accepted r b).err = g.err := rfl
@[simp] theorem Rasm.accepted_buf (r : Report) (g : Rasm) (b : Memory) : (g.accepted r b).buf = b := rfl
@[simp] theorem Rasm.accepted_era (r : Report) (g : Rasm) (b : Memory) : (g.accepted r b).era = g.era := rfl

section Accepted

variable {r : Report} {g : Rasm} (hl : r.length = 61) (hv : g.violation r = none) (b : Memory)

include hv

theorem Rasm.accepted_cnt_toNat : (g.accepted r b).cnt.toNat = (fragCount r).toNat := by
  obtain ⟨hh, -, hrest⟩ := Rasm.violation_none hv
  rw [hdrOk_iff] at hh
  by_cases hi : g.st = .idle
  · simp only [Rasm.accepted, hi, if_true, BitVec.toNat_ofNat]
    omega
  · obtain ⟨-, hcnt, -⟩ := hrest hi
    simp [Rasm.accepted, hi, hcnt]

theorem Rasm.accepted_next_toNat : (g.accepted r b).next.toNat = (fragIdx r).toNat + 1 := by
  obtain ⟨hh, -, -⟩ := Rasm.violation_none hv
  rw [hdrOk_iff] at hh
  simp only [Rasm.accepted, BitVec.toNat_ofNat]
  omega

theorem Rasm.accepted_st :
    (g.accepted r b).st = if (fragIdx r).toNat = (fragCount r).toNat then .complete else .active := by
  rw [← Rasm.accepted_cnt_toNat hv b]
  rfl

include hl

theorem Rasm.accepted_len_toNat (hroom : g.storeAt + (payload r).length ≤ 840) :
    (g.accepted r b).len.toNat = g.storeAt + (payload r).length := by
  obtain ⟨hh, -, -⟩ := Rasm.violation_none hv
  rw [payload_length hl hh] at hroom ⊢
  simp only [Rasm.accepted, BitVec.toNat_ofNat]
  omega

end Accepted

/-! ## R33's invariant -/

/-- R33's lines with the form of RBUF, on the reassembly registers alone. -/
abbrev Rasm.Inv (g : Rasm) : Prop := g.regsInv ∧ g.bufInv

/-- R33's line on IDLE. -/
theorem Rasm.regsInv_of_idle {g : Rasm} (hst : g.st = .idle) (hp : g.progressZero) (he : g.err = 0#8) : g.regsInv :=
  ⟨fun _ => ⟨hp, he⟩, by simp [hst], by simp [hst], by simp [hst]⟩

/-- R33's line on ACTIVE. -/
theorem Rasm.regsInv_of_active {g : Rasm} (hst : g.st = .active) (hc : 1 ≤ g.cnt.toNat ∧ g.cnt.toNat ≤ 15)
    (hn : 2 ≤ g.next.toNat ∧ g.next.toNat ≤ g.cnt.toNat) (hl : g.len.toNat ≤ 56 * (g.next.toNat - 1))
    (he : g.err = 0#8) : g.regsInv :=
  ⟨by simp [hst], fun _ => ⟨hc.1, hc.2, hn.1, hn.2, hl, he⟩, by simp [hst], by simp [hst]⟩

/-- R33's line on COMPLETE. -/
theorem Rasm.regsInv_of_complete {g : Rasm} (hst : g.st = .complete) (hc : 1 ≤ g.cnt.toNat ∧ g.cnt.toNat ≤ 15)
    (hn : g.next.toNat = g.cnt.toNat + 1) (hl : g.len.toNat ≤ 56 * g.cnt.toNat) (he : g.err = 0#8) : g.regsInv :=
  ⟨by simp [hst], by simp [hst], fun _ => ⟨hc.1, hc.2, hn, hl, he⟩, by simp [hst]⟩

/-- R33's line on ERROR. -/
theorem Rasm.regsInv_of_error {g : Rasm} (hst : g.st = .error) (hp : g.progressZero) (he : g.err ∈ latchCodes) :
    g.regsInv :=
  ⟨by simp [hst], by simp [hst], by simp [hst], fun _ => ⟨hp, he⟩⟩

/-- RBUF keeps its form where RASM_LEN becomes 0. -/
theorem Rasm.bufInv_of_len_zero {g g' : Rasm} (h : g.bufInv) (hb : g'.buf = g.buf) (hl : g'.len = 0#10) :
    g'.bufInv := by
  obtain ⟨hwf, hrange, -⟩ := h
  refine ⟨hb ▸ hwf, hb ▸ hrange, fun a ha => ?_⟩
  simp [hl] at ha

theorem Rasm.inv_reset : Rasm.reset.Inv := by decide

theorem Rasm.inv_restart (g : Rasm) : g.restart.Inv :=
  ⟨Rasm.regsInv_of_idle rfl ⟨rfl, rfl, rfl, rfl⟩ rfl, Rasm.bufInv_of_len_zero (Rasm.inv_reset.2) rfl rfl⟩

theorem Rasm.inv_clear {g : Rasm} (h : g.Inv) : g.clear.Inv :=
  ⟨Rasm.regsInv_of_idle rfl ⟨rfl, rfl, rfl, rfl⟩ rfl, Rasm.bufInv_of_len_zero h.2 rfl rfl⟩

theorem Rasm.inv_latch {g : Rasm} {e : ErrorKind} (h : g.Inv) (he : e.isFragmentation = true) : (g.latch e).Inv :=
  ⟨Rasm.regsInv_of_error rfl ⟨rfl, rfl, rfl, rfl⟩ (ErrorKind.code_mem_latchCodes he),
    Rasm.bufInv_of_len_zero h.2 rfl rfl⟩

/-- RASM_TAKE need not write RASM_ERR: it is 0x00 in COMPLETE (R111). -/
theorem Rasm.inv_taken {g : Rasm} (h : g.Inv) (hst : g.st = .complete) : g.taken.Inv := by
  obtain ⟨⟨-, -, hcomplete, -⟩, hbuf⟩ := h
  obtain ⟨-, -, -, -, herr⟩ := hcomplete hst
  exact ⟨Rasm.regsInv_of_idle rfl ⟨rfl, rfl, rfl, rfl⟩ herr, Rasm.bufInv_of_len_zero hbuf rfl rfl⟩

/-- The earlier fragments fill at most 56 bytes each, and no error is latched while fragments are accepted. -/
theorem Rasm.storeAt_le {r : Report} {g : Rasm} (h : g.regsInv) (hst : g.st = .idle ∨ g.st = .active)
    (hv : g.violation r = none) : g.storeAt ≤ 56 * ((fragIdx r).toNat - 1) ∧ g.err = 0#8 := by
  obtain ⟨hidle, hactive, -, -⟩ := h
  obtain ⟨-, -, hrest⟩ := Rasm.violation_none hv
  rcases hst with hst | hst
  · exact ⟨by simp [Rasm.storeAt, hst], (hidle hst).2⟩
  · obtain ⟨-, -, -, -, hlen, herr⟩ := hactive hst
    obtain ⟨-, -, hidx⟩ := hrest (by simp [hst])
    exact ⟨by simpa [Rasm.storeAt, hst, hidx] using hlen, herr⟩

/-- An accepted report leaves the registers in R33's line on COMPLETE after the last fragment, on ACTIVE before. -/
theorem Rasm.regsInv_accepted {r : Report} {g : Rasm} (b : Memory) (h : g.regsInv) (hl : r.length = 61)
    (hst : g.st = .idle ∨ g.st = .active) (hv : g.violation r = none)
    (hroom : g.storeAt + (payload r).length ≤ 840) : (g.accepted r b).regsInv := by
  obtain ⟨hh, -, -⟩ := Rasm.violation_none hv
  obtain ⟨hstore, herr⟩ := Rasm.storeAt_le h hst hv
  have hpay : (payload r).length ≤ 56 := payload_length hl hh ▸ payloadLen_le hh
  have hcnt := Rasm.accepted_cnt_toNat hv b
  have hnext := Rasm.accepted_next_toNat hv b
  have hlen := Rasm.accepted_len_toNat hl hv b hroom
  rw [hdrOk_iff] at hh
  have hlast := Rasm.accepted_st hv b
  split at hlast
  · exact Rasm.regsInv_of_complete hlast (by omega) (by omega) (by omega) herr
  · exact Rasm.regsInv_of_active hlast (by omega) (by omega) (by omega) herr

/-- An accepted report extends the written bytes up to the new RASM_LEN. -/
theorem Rasm.bufInv_accepted {r : Report} {g : Rasm} (h : g.bufInv) (hl : r.length = 61) (hv : g.violation r = none)
    (hroom : g.storeAt + (payload r).length ≤ 840) :
    (g.accepted r (g.buf.writeAll g.storeAt (payload r))).bufInv := by
  obtain ⟨hwf, hrange, hwritten⟩ := h
  have hwrite : memWrite g.storeAt (payload r) g.buf = .ok (g.buf.writeAll g.storeAt (payload r)) :=
    memWrite_ok.2 ⟨hroom, rfl⟩
  refine ⟨memWrite_wf hwrite hwf, memWrite_inRange hwrite hrange, fun a ha => ?_⟩
  rw [Rasm.accepted_len_toNat hl hv _ hroom] at ha
  rw [Rasm.accepted_buf]
  by_cases hlt : a < g.storeAt
  · have hle : g.storeAt ≤ g.len.toNat := Rasm.storeAt_le_len g
    rw [Memory.written_writeAll_of_lt _ hlt]
    exact hwritten a (by omega)
  · obtain ⟨j, rfl⟩ := Nat.exists_eq_add_of_le (Nat.le_of_not_lt hlt)
    rw [Memory.written_writeAll _ (by omega)]
    simpa using ha

theorem Rasm.inv_push {r : Report} {g g' : Rasm} {x : Result} (hg : g.Inv) (h : g.push r = .ok (g', x)) : g'.Inv := by
  obtain rfl | ⟨e, he, rfl⟩ | ⟨hl, hst, hv, hroom, rfl⟩ := Rasm.push_next h
  · exact hg
  · exact Rasm.inv_latch hg he
  · exact ⟨Rasm.regsInv_accepted _ hg.1 hl hst hv hroom, Rasm.bufInv_accepted hg.2 hl hv hroom⟩

theorem Rasm.inv_take {g g' : Rasm} {x : Result} (hg : g.Inv) (h : g.take = .ok (g', x)) : g'.Inv := by
  obtain rfl | ⟨hst, rfl⟩ := Rasm.take_next h
  · exact hg
  · exact Rasm.inv_taken hg hst

/-- Every operation keeps the invariant. -/
theorem exec_keeps_inv {i : Instr} {s t : State} (hs : s.Inv) (h : exec i s = .next t) : t.Inv := by
  obtain ⟨x, rfl⟩ | ⟨-, rfl⟩ | ⟨r, g, x, -, hg, rfl⟩ | ⟨g, x, -, hg, rfl⟩ | ⟨-, rfl⟩ | ⟨-, n, x, rfl⟩ |
    ⟨-, n, x, rfl⟩ := exec_next_cases h
  · exact hs
  · exact Rasm.inv_restart s.rasm
  · exact Rasm.inv_push (g := s.rasm) hs hg
  · exact Rasm.inv_take (g := s.rasm) hs hg
  · exact Rasm.inv_clear hs
  · exact hs
  · exact hs

/-! ## The hidden bytes of RBUF (R34) -/

/-- Two sets of reassembly registers that differ at most in the bytes of RBUF at and above RASM_LEN. -/
def Rasm.VisiblyEqual (g g' : Rasm) : Prop :=
  g' = { g with buf := g'.buf, era := g'.era } ∧ ∀ a, a < g.len.toNat → g'.byte a = g.byte a

/-- On states, the registers of R28 and R29, the results and the program are equal besides. -/
theorem visiblyEqual_iff {s s' : State} :
    Claims.VisiblyEqual s s' ↔ ∃ g', s' = { s with rasm := g' } ∧ s.rasm.VisiblyEqual g' := by
  constructor
  · rintro ⟨hs, hbyte⟩
    refine ⟨s'.rasm, ?_, ?_, hbyte⟩
    · rw [hs]
    · conv_lhs => rw [hs]
  · rintro ⟨g', rfl, hg, hbyte⟩
    refine ⟨?_, hbyte⟩
    conv_lhs => rw [hg]

/-- Where RASM_LEN is 0 no byte is visible. -/
theorem Rasm.visiblyEqual_of_len_zero {g : Rasm} (m : Memory) (e : Nat) (h : g.len = 0#10) :
    g.VisiblyEqual { g with buf := m, era := e } :=
  ⟨rfl, fun a ha => by simp [h] at ha⟩

theorem Rasm.VisiblyEqual.latch {g g' : Rasm} (h : g.VisiblyEqual g') (e : ErrorKind) :
    (g.latch e).VisiblyEqual (g'.latch e) := by
  obtain ⟨hg, -⟩ := h
  rw [hg]
  exact Rasm.visiblyEqual_of_len_zero _ _ rfl

theorem Rasm.VisiblyEqual.clear {g g' : Rasm} (h : g.VisiblyEqual g') : g.clear.VisiblyEqual g'.clear := by
  obtain ⟨hg, -⟩ := h
  rw [hg]
  exact Rasm.visiblyEqual_of_len_zero _ _ rfl

theorem Rasm.VisiblyEqual.taken {g g' : Rasm} (h : g.VisiblyEqual g') : g.taken.VisiblyEqual g'.taken := by
  obtain ⟨hg, -⟩ := h
  rw [hg]
  exact Rasm.visiblyEqual_of_len_zero _ _ rfl

theorem Rasm.visiblyEqual_restart (g g' : Rasm) : g.restart.VisiblyEqual g'.restart :=
  Rasm.visiblyEqual_of_len_zero _ _ rfl

/-- The bytes below the new RASM_LEN are the visible ones and those of the payload, equal on both sides. -/
theorem Rasm.VisiblyEqual.accepted {r : Report} {g g' : Rasm} (h : g.VisiblyEqual g') (hl : r.length = 61)
    (hv : g.violation r = none) (hroom : g.storeAt + (payload r).length ≤ 840) :
    (g.accepted r (g.buf.writeAll g.storeAt (payload r))).VisiblyEqual
      (g'.accepted r (g'.buf.writeAll g.storeAt (payload r))) := by
  obtain ⟨hg, hbyte⟩ := h
  refine ⟨by rw [hg]; rfl, fun a ha => ?_⟩
  rw [Rasm.accepted_len_toNat hl hv _ hroom] at ha
  simp only [Rasm.byte, Rasm.accepted_buf, Rasm.accepted_era]
  by_cases hlt : a < g.storeAt
  · have hle : g.storeAt ≤ g.len.toNat := Rasm.storeAt_le_len g
    rw [Memory.read_writeAll_outside _ _ (.inl hlt), Memory.read_writeAll_outside _ _ (.inl hlt)]
    exact hbyte a (by omega)
  · obtain ⟨j, rfl⟩ := Nat.exists_eq_add_of_le (Nat.le_of_not_lt hlt)
    have hj : j < (payload r).length := by omega
    exact Option.some.inj ((Memory.read_writeAll _ _ hj).symm.trans (Memory.read_writeAll _ _ hj))

/-- RASM_PUSH reads no byte of RBUF: it answers the same on both sides. -/
theorem Rasm.VisiblyEqual.push {r : Report} {g g' u : Rasm} {x : Result} (h : g.VisiblyEqual g')
    (hu : g.push r = .ok (u, x)) : ∃ u', g'.push r = .ok (u', x) ∧ u.VisiblyEqual u' := by
  have heq : g' = { g with buf := g'.buf, era := g'.era } := h.1
  have hst : g'.st = g.st := by rw [heq]
  have hviol : g'.violation r = g.violation r := by rw [heq]; rfl
  have hstore : g'.storeAt = g.storeAt := by rw [heq]; rfl
  have hval : g'.acceptValue r = g.acceptValue r := by rw [heq]; rfl
  obtain ⟨hl, hg⟩ | ⟨hl, hs, hg⟩ | ⟨hl, hs, hg⟩ | ⟨e, hl, hs, hv, hg⟩ | ⟨hl, hs, hv, hg⟩ := g.push_cases r <;>
    rw [hg] at hu
  · cases hu
    exact ⟨g', Rasm.push_of_length_ne g' hl, h⟩
  · cases hu
    have herr : g'.err = g.err := by rw [heq]
    exact ⟨g', herr ▸ Rasm.push_of_error hl (hst.trans hs), h⟩
  · cases hu
    have hlen : g'.len = g.len := by rw [heq]
    exact ⟨g', hlen ▸ Rasm.push_of_complete hl (hst.trans hs), h⟩
  · cases hu
    exact ⟨g'.latch e, Rasm.push_of_violation hl (hst ▸ hs) (hviol.trans hv), h.latch e⟩
  · rw [Rasm.accept_eq] at hu
    split at hu
    · next hroom =>
      cases hu
      refine ⟨_, ?_, h.accepted hl hv hroom⟩
      rw [Rasm.push_of_no_violation hl (hst ▸ hs) (hviol.trans hv), Rasm.accept_eq, hstore, hval, if_pos hroom]
    · cases hu

/-- RASM_TAKE reads the bytes below RASM_LEN alone. -/
theorem Rasm.VisiblyEqual.readAll {g g' : Rasm} (h : g.VisiblyEqual g') :
    g'.buf.readAll g'.era 0 g.len.toNat = g.buf.readAll g.era 0 g.len.toNat := by
  obtain ⟨-, hbyte⟩ := h
  refine List.ext_getElem? fun j => ?_
  by_cases hj : j < g.len.toNat
  · rw [Memory.readAll_getElem? _ hj, Memory.readAll_getElem? _ hj, Nat.zero_add]
    exact congrArg some (hbyte j hj)
  · rw [List.getElem?_eq_none (by simpa using hj), List.getElem?_eq_none (by simpa using hj)]

theorem Rasm.VisiblyEqual.take {g g' u : Rasm} {x : Result} (h : g.VisiblyEqual g') (hu : g.take = .ok (u, x)) :
    ∃ u', g'.take = .ok (u', x) ∧ u.VisiblyEqual u' := by
  have hst : g'.st = g.st := by rw [h.1]
  have hlen : g'.len = g.len := by rw [h.1]
  obtain ⟨hs, hg⟩ | ⟨hs, hle, hg⟩ | ⟨-, -, hg⟩ := g.take_cases <;> rw [hg] at hu <;> cases hu
  · exact ⟨g', hst ▸ Rasm.take_of_not_complete (hst ▸ hs), h⟩
  · refine ⟨g'.taken, ?_, h.taken⟩
    rw [Rasm.take_of_complete (hst.trans hs) (hlen ▸ hle), hlen, h.readAll]

end Sys2Proof.Machine

namespace Sys2Proof.Proofs

open Sys2Proof.Machine

/-- Settles O9: exec keeps the invariant, and issuing and closing touch the program and the results alone. -/
theorem stepKeepsInvariant : Obligations.StepKeepsInvariant := by
  intro s t hs h
  obtain ⟨-, he⟩ | ⟨i, rest, -, -, he⟩ | ⟨i, rest, ins, -, -, -, he⟩ | ⟨i, rest, rej, -, -, -, he⟩ := step_cases s <;>
    rw [he] at h
  · cases h
    exact hs
  · cases h
  · obtain ⟨u, hu, rfl⟩ := closeIssue_next.1 h
    have hinv : u.Inv := exec_keeps_inv (s := { s with program := rest }) hs hu
    simpa only [State.Inv, State.endOnError_rasm] using hinv
  · obtain ⟨u, hu, rfl⟩ := closeIssue_next.1 h
    cases hu
    simpa only [State.Inv, State.endOnError_rasm, State.answer_rasm] using hs

/-- Settles O19: every operation answers the same on both sides, and what it writes to RBUF is the payload alone. -/
theorem hiddenBytesNeverInfluence : Obligations.HiddenBytesNeverInfluence := by
  intro i s s' t hss h
  obtain ⟨g', rfl, hg⟩ := visiblyEqual_iff.1 hss
  obtain ⟨x, hx⟩ | ⟨rs, f, -, -, hf⟩ | rfl | ⟨r, rfl⟩ | rfl | rfl | rfl | rfl := exec_cases i
  · obtain rfl : s.answer x = t := by simpa [hx] using h
    exact ⟨_, hx _, visiblyEqual_iff.2 ⟨g', rfl, hg⟩⟩
  · simp [hf] at h
  · cases h
    exact ⟨_, rfl, visiblyEqual_iff.2 ⟨_, rfl, Rasm.visiblyEqual_restart s.rasm g'⟩⟩
  · obtain ⟨u, x, hu, rfl⟩ := State.commit_next.1 (exec_rasmPush r s ▸ h)
    obtain ⟨u', hu', huu⟩ := hg.push hu
    exact ⟨_, State.commit_next.2 ⟨u', x, hu', rfl⟩, visiblyEqual_iff.2 ⟨u', rfl, huu⟩⟩
  · obtain ⟨u, x, hu, rfl⟩ := State.commit_next.1 (exec_rasmTake s ▸ h)
    obtain ⟨u', hu', huu⟩ := hg.take hu
    exact ⟨_, State.commit_next.2 ⟨u', x, hu', rfl⟩, visiblyEqual_iff.2 ⟨u', rfl, huu⟩⟩
  · cases h
    exact ⟨_, rfl, visiblyEqual_iff.2 ⟨_, rfl, hg.clear⟩⟩
  · cases h
    exact ⟨_, rfl, visiblyEqual_iff.2 ⟨_, rfl, hg⟩⟩
  · cases h
    exact ⟨_, rfl, visiblyEqual_iff.2 ⟨_, rfl, hg⟩⟩

/-- Settles O14: of the operations that write the reassembly registers, RASM_TAKE and RASM_CLEAR keep RBUF. -/
theorem writersOfReassemblyBuffer : Obligations.WritersOfReassemblyBuffer := by
  intro i s t h hpush hreset
  obtain ⟨x, rfl⟩ | ⟨rfl, -⟩ | ⟨r, g, x, rfl, -, -⟩ | ⟨g, x, rfl, hg, rfl⟩ | ⟨rfl, rfl⟩ | ⟨-, n, x, rfl⟩ |
    ⟨-, n, x, rfl⟩ := exec_next_cases h
  · exact ⟨rfl, rfl, fun _ _ => rfl⟩
  · exact absurd rfl hreset
  · exact absurd rfl (hpush r)
  · obtain rfl | ⟨-, rfl⟩ := Rasm.take_next hg
    · exact ⟨rfl, rfl, fun _ _ => rfl⟩
    · exact ⟨rfl, rfl, fun hn => absurd rfl hn⟩
  · exact ⟨rfl, rfl, fun _ hn => absurd rfl hn⟩
  · exact ⟨rfl, rfl, fun _ _ => rfl⟩
  · exact ⟨rfl, rfl, fun _ _ => rfl⟩

/-- Settles O15: the index issued is at most 15, so PKT_SEQ's four bits hold it; the frame is exec's case list. -/
theorem pktSeqHoldsLastIssuedIndex : Obligations.PktSeqHoldsLastIssuedIndex := by
  refine ⟨rfl, fun s t h => ?reset, fun s t h => ?issued, fun i s t h hnext hreset => ?frame⟩
  case reset =>
    cases h
    rfl
  case issued =>
    cases h
    refine ⟨_, rfl, ?_⟩
    have hle : seqNext Config.maxFrags s.pktSeq.toNat ≤ 15 := seqNext_le (by decide) _
    simp only [State.answer_pktSeq, BitVec.toNat_ofNat]
    omega
  case frame =>
    obtain ⟨x, rfl⟩ | ⟨rfl, -⟩ | ⟨r, g, x, -, -, rfl⟩ | ⟨g, x, -, -, rfl⟩ | ⟨-, rfl⟩ | ⟨rfl, -⟩ |
      ⟨-, n, x, rfl⟩ := exec_next_cases h
    · rfl
    · exact absurd rfl hreset
    · rfl
    · rfl
    · rfl
    · exact absurd rfl hnext
    · rfl

/-- Settles O16: the id issued is at most 127, so CMD_SEQ's seven bits hold it; the frame is exec's case list. -/
theorem cmdSeqHoldsLastIssuedId : Obligations.CmdSeqHoldsLastIssuedId := by
  refine ⟨rfl, fun s t h => ?reset, fun s t h => ?issued, fun i s t h hnext hreset => ?frame⟩
  case reset =>
    cases h
    rfl
  case issued =>
    cases h
    refine ⟨_, rfl, ?_⟩
    have hle : seqNext Config.maxCmdId s.cmdSeq.toNat ≤ 127 := seqNext_le (by decide) _
    simp only [State.answer_cmdSeq, BitVec.toNat_ofNat]
    omega
  case frame =>
    obtain ⟨x, rfl⟩ | ⟨rfl, -⟩ | ⟨r, g, x, -, -, rfl⟩ | ⟨g, x, -, -, rfl⟩ | ⟨-, rfl⟩ | ⟨-, n, x, rfl⟩ |
      ⟨rfl, -⟩ := exec_next_cases h
    · rfl
    · exact absurd rfl hreset
    · rfl
    · rfl
    · rfl
    · rfl
    · exact absurd rfl hnext

/-- Settles O17: RASM_PUSH writes RASM_ERR by the latch alone, and RASM_TAKE does not write it. -/
theorem writersOfRasmErr : Obligations.WritersOfRasmErr := by
  intro i s t h hne
  obtain ⟨x, rfl⟩ | ⟨rfl, rfl⟩ | ⟨r, g, x, rfl, hg, rfl⟩ | ⟨g, x, -, hg, rfl⟩ | ⟨rfl, rfl⟩ | ⟨-, n, x, rfl⟩ |
    ⟨-, n, x, rfl⟩ := exec_next_cases h
  · exact absurd rfl hne
  · exact .inl ⟨rfl, .inr rfl⟩
  · obtain rfl | ⟨e, he, rfl⟩ | ⟨-, -, -, -, rfl⟩ := Rasm.push_next hg
    · exact absurd rfl hne
    · exact .inr ⟨ErrorKind.code_mem_latchCodes he, rfl, r, rfl⟩
    · exact absurd rfl hne
  · obtain rfl | ⟨-, rfl⟩ := Rasm.take_next hg <;> exact absurd rfl hne
  · exact .inl ⟨rfl, .inl rfl⟩
  · exact absurd rfl hne
  · exact absurd rfl hne

/-- Settles O8: each register holds its reset value, and with nothing written every byte of RBUF reads as the free value. -/
theorem resetStateMeetsInvariant : Obligations.ResetStateMeetsInvariant :=
  ⟨Rasm.inv_reset, rfl, rfl, rfl, rfl, rfl, rfl, rfl, rfl, fun a => Memory.read_of_unwritten (Memory.written_nil a)⟩

end Sys2Proof.Proofs
end

section
/-! PROOFS. What the host keeps, results and program, influences no operation (R51, logs 1 and 3). -/

namespace Sys2Proof.Proofs

open Sys2Proof.Machine

/-- Settles O18: only six operations read the state, and those read its registers alone, so the registers they compute
and the result they append are the same beside any other results and program. -/
theorem operationsIgnoreResultsAndProgram : Obligations.OperationsIgnoreResultsAndProgram := by
  intro i s t h
  obtain ⟨x, hx⟩ | ⟨rs, f, -, -, hf⟩ | rfl | ⟨r, rfl⟩ | rfl | rfl | rfl | rfl := exec_cases i
  · obtain rfl : s.answer x = t := by simpa [hx] using h
    exact ⟨x, rfl, fun _ _ => hx _⟩
  · simp [hf] at h
  · cases h
    exact ⟨_, rfl, fun _ _ => exec_reset _⟩
  · obtain ⟨g, x, hg, rfl⟩ := State.commit_next.1 (exec_rasmPush r s ▸ h)
    exact ⟨x, rfl, fun _ _ => State.commit_next.2 ⟨g, x, hg, rfl⟩⟩
  · obtain ⟨g, x, hg, rfl⟩ := State.commit_next.1 (exec_rasmTake s ▸ h)
    exact ⟨x, rfl, fun _ _ => State.commit_next.2 ⟨g, x, hg, rfl⟩⟩
  · cases h
    exact ⟨_, rfl, fun _ _ => exec_rasmClear _⟩
  · cases h
    exact ⟨_, rfl, fun _ _ => exec_seqNextPkt _⟩
  · cases h
    exact ⟨_, rfl, fun _ _ => exec_seqNextCmd _⟩

end Sys2Proof.Proofs
end

section
/-! PROOFS. The decoder on every op word and wire byte, and what the illegal words and the wire bytes answer (R61 to
R68, R73, R74). -/

namespace Sys2Proof.Machine

/-! ## Words and their fields -/

/-- The two fields of an op word make the word (R61). -/
theorem append_opWord_fields (w : Byte) : w.extractLsb' 4 4 ++ w.extractLsb' 0 4 = w := by
  rw [BitVec.extractLsb'_append_extractLsb'_eq_extractLsb' (by rfl)]
  exact BitVec.extractLsb'_eq_self

/-- RSV stands above the four bits of the operation (R61). -/
theorem toNat_opWord (rsv opc : BitVec 4) : (rsv ++ opc).toNat = 16 * rsv.toNat + opc.toNat := by
  rw [BitVec.toNat_append, ← Nat.shiftLeft_add_eq_or_of_lt opc.isLt, Nat.shiftLeft_eq]
  omega

/-- Bit 7 of a timing byte is its polarity bit (R65). -/
theorem getLsbD_timingByte (p : BitVec 1) (d : BitVec 7) : (p ++ d).getLsbD 7 = p.getLsbD 0 := by
  rw [BitVec.getLsbD_append, if_neg (by decide)]

/-! ## The decoder (R61, R62, R64, R65, R68, R73) -/

/-- Every op word with RSV not zero is illegal (R64). -/
theorem decodeOp_of_ge {w : Byte} (o : Operands) (h : 16 ≤ w.toNat) :
    decodeOp w o = .illegalRsv (w.extractLsb' 4 4) (w.extractLsb' 0 4) := by
  obtain ⟨n, hn⟩ := Nat.exists_eq_add_of_le' h
  simp only [decodeOp, hn]

theorem decodeOp_append {rsv opc : BitVec 4} (o : Operands) (h : rsv ≠ 0#4) :
    decodeOp (rsv ++ opc) o = .illegalRsv rsv opc := by
  have hpos : 0 < rsv.toNat := Nat.pos_of_ne_zero fun h0 => h (BitVec.eq_of_toNat_eq h0)
  rw [decodeOp_of_ge o (by rw [toNat_opWord]; omega), BitVec.extractLsb'_append_eq_left,
    BitVec.extractLsb'_append_eq_right]

/-- The polarity of a timing byte alone selects its row (R65). -/
theorem decodeTiming_append (p : BitVec 1) (d : BitVec 7) :
    decodeTiming (p ++ d) = if p.getLsbD 0 then .tbyteMark d else .tbyteSpace d := by
  rw [decodeTiming, getLsbD_timingByte, BitVec.extractLsb'_append_eq_right]

/-- A byte outside the seven command types has none of their numbers. -/
theorem toNat_ne_of_not_mem_sevenTypes {w : Byte} (h : w ∉ Claims.sevenTypes) :
    w.toNat ≠ 0x56 ∧ w.toNat ≠ 0x4C ∧ w.toNat ≠ 0x53 ∧ w.toNat ≠ 0x52 ∧ w.toNat ≠ 0x44 ∧ w.toNat ≠ 0x4F ∧
      w.toNat ≠ 0x43 := by
  simpa [Claims.sevenTypes, BitVec.toNat_eq] using h

/-- The decoder rejects every command-type byte outside the seven (R74). -/
theorem decodeCmdType_of_not_mem {w : Byte} (h : w ∉ Claims.sevenTypes) :
    decodeCmdType w = .error (.unknownCmdType w) := by
  have hne := toNat_ne_of_not_mem_sevenTypes h
  unfold decodeCmdType
  split
  case h_8 => rfl
  all_goals omega

/-- Such a byte is read as Unknown (R148). -/
theorem cmdTypeOf_of_not_mem {w : Byte} (h : w ∉ Claims.sevenTypes) : cmdTypeOf w = .unknown w := by
  have hne := toNat_ne_of_not_mem_sevenTypes h
  unfold cmdTypeOf
  split
  case h_8 => rfl
  all_goals omega

/-- The decoder rejects every report id byte but 0x01 and 0x02 (R68). -/
theorem decodeReportId_of_ne {w : Byte} (h1 : w ≠ 0x01#8) (h2 : w ≠ 0x02#8) :
    decodeReportId w = .error (.unassignedReportId w) := by
  unfold decodeReportId
  split
  case h_3 => rfl
  all_goals bv_omega

/-- Such a byte marks no direction (R68). -/
theorem directionOf_of_ne {w : Byte} (h1 : w ≠ 0x01#8) (h2 : w ≠ 0x02#8) : directionOf w = .unassigned w := by
  unfold directionOf
  split
  case h_3 => rfl
  all_goals bv_omega

/-! ## The readings of a byte -/

/-- The reading of a timing byte by its two fields (R65). -/
theorem readTiming_append (p : BitVec 1) (d : BitVec 7) :
    readTiming (p ++ d) = .timing (p.getLsbD 0) d.toNat (16 * d.toNat) := by
  have hd : duration (p ++ d) = d.toNat := by rw [duration, BitVec.extractLsb'_append_eq_right]
  rw [readTiming, polarity, getLsbD_timingByte, hd]

/-- A wire byte that the decoder rejects is read, and the host goes on (log 6). -/
theorem step_of_reject {s : State} {i : Issue} {rest : List Issue} {rej : Reject} (hp : s.program = i :: rest)
    (ho : i.overlaps = false) (hd : decode i.code = .error rej) :
    step s = .next { s with program := rest, results := s.results ++ [.ok (rejectReading rej)] } := by
  have hclose := State.endOnError_of_ok (s := { s with program := rest }.answer (.ok (rejectReading rej))) rfl i
  simp only [step, State.fetch, hp, ho, hd, State.reply_eq, closeIssue, hclose]
  rfl

end Sys2Proof.Machine

namespace Sys2Proof.Proofs

open Sys2Proof.Machine Sys2Proof.Claims

/-- Settles O4: an op word of the table, a command type and a report id are numbers that the decoder's tables list; the
op words with RSV not zero and the timing bytes give back the two fields they are made of. -/
theorem decodeOfEncodeIsIdentity : Obligations.DecodeOfEncodeIsIdentity := by
  intro i hwf
  cases i with
  | illegalRsv rsv opc => exact congrArg Except.ok (decodeOp_append _ (by simpa [Instr.wf] using hwf))
  | tbyteMark d => exact congrArg Except.ok (decodeTiming_append 1#1 d)
  | tbyteSpace d => exact congrArg Except.ok (decodeTiming_append 0#1 d)
  | reset | necEncode | necDecode | fragSplit | rasmPush | rasmTake | rasmClear | pktFrame | pktUnframe | dataPack
  | dataUnpack | seqNextPkt | seqNextCmd | rptParse | fragReassemble | illegal => rfl
  | ctVersion | ctIdleMode | ctSendMode | ctRecvMode | ctData | ctOutput | ctCancel => rfl
  | rptidOutbound | rptidInbound => rfl

/-- Settles O5: each of the fifteen words is a line of the decoder's table, whatever the operand fields. -/
theorem opWordsDecodeByTable : Obligations.OpWordsDecodeByTable := by
  refine ⟨?_, ?_, ?_, ?_, ?_, ?_, ?_, ?_, ?_, ?_, ?_, ?_, ?_, ?_, ?_⟩ <;> exact fun _ => rfl

/-- An op word with RSV not zero answers IllegalOp with the word's number and changes no register (R64). -/
theorem replies_illegalRsv (rsv opc : BitVec 4) (s : State) :
    Replies (.illegalRsv rsv opc) s (.err .illegalOp (.num (rsv ++ opc).toNat)) := rfl

/-- Settles O6: the word's two fields, which the decoder keeps, make the word again. -/
theorem illegalOpWordsAnswerIllegalOp : Obligations.IllegalOpWordsAnswerIllegalOp := by
  refine ⟨fun _ => rfl, fun rsv opc s => toNat_opWord rsv opc ▸ replies_illegalRsv rsv opc s, ?_⟩
  rintro w o (rfl | hw)
  · exact ⟨.illegal, rfl, fun _ => rfl⟩
  · refine ⟨_, congrArg Except.ok (decodeOp_of_ge o hw), fun s => ?_⟩
    simpa only [append_opWord_fields] using replies_illegalRsv (w.extractLsb' 4 4) (w.extractLsb' 0 4) s

/-- Settles O3: the decoder rejects the byte by name, and the step reads it. -/
theorem wireByteOutsideTableIsRead : Obligations.WireByteOutsideTableIsRead := by
  intro s w o stop rest
  refine ⟨fun hw hp => ?cmdType, fun h1 h2 hp => ?reportId⟩
  case cmdType => rw [step_of_reject hp rfl (decodeCmdType_of_not_mem hw), rejectReading, cmdTypeOf_of_not_mem hw]
  case reportId => rw [step_of_reject hp rfl (decodeReportId_of_ne h1 h2), rejectReading, directionOf_of_ne h1 h2]

/-- A mark reads as its seven duration bits (R65). -/
theorem replies_tbyteMark (d : BitVec 7) (s : State) :
    Replies (.tbyteMark d) s (.ok (.timing true d.toNat (16 * d.toNat))) :=
  congrArg (fun v => State.reply (.ok v) s) (readTiming_append 1#1 d)

/-- A space reads as its seven duration bits (R65). -/
theorem replies_tbyteSpace (d : BitVec 7) (s : State) :
    Replies (.tbyteSpace d) s (.ok (.timing false d.toNat (16 * d.toNat))) :=
  congrArg (fun v => State.reply (.ok v) s) (readTiming_append 0#1 d)

/-- Settles O53: bit 7 selects the row, and the duration bits kept are the byte modulo 128. -/
theorem timingBytesRead : Obligations.TimingBytesRead := by
  refine ⟨replies_tbyteMark, replies_tbyteSpace, fun w o => ⟨decodeTiming w, rfl, fun s => ?_⟩⟩
  have hd : (w.extractLsb' 0 7).toNat = w.toNat % 128 := duration_eq w
  rw [decodeTiming, ← hd]
  cases w.getLsbD 7 with
  | true => exact replies_tbyteMark _ s
  | false => exact replies_tbyteSpace _ s

/-- Settles O54: the nine bytes are lines of the tables for decoding and for reading, and no other byte is. -/
theorem commandTypeAndReportIdBytesRead : Obligations.CommandTypeAndReportIdBytesRead := by
  intro s o
  refine ⟨rfl, rfl, rfl, rfl, rfl, rfl, rfl, rfl, rfl, rfl, rfl, rfl, rfl, rfl, rfl, rfl, rfl, rfl, ?_⟩
  exact fun w hw => cmdTypeOf_of_not_mem hw

/-- Settles O28: in these three cases RASM_PUSH ends with the registers it began with. -/
theorem rasmPushHoldsOff : Obligations.RasmPushHoldsOff := by
  intro r s
  refine ⟨fun hl => ?malformed, fun hl hst => ?locked, fun hl hst => ?busy⟩
  case malformed => rw [Replies, exec_rasmPush, Rasm.push_of_length_ne _ hl, State.commit_ok]
  case locked => rw [Replies, exec_rasmPush, Rasm.push_of_error hl hst, State.commit_ok]
  case busy => rw [Replies, exec_rasmPush, Rasm.push_of_complete hl hst, State.commit_ok]

end Sys2Proof.Proofs
end

section
/-! PROOFS. The fragments of a packet: what splitting makes of it, and what the reassembly registers make of them (R102,
R109, R113 to R115). -/

namespace Sys2Proof.Machine

/-! ## RBUF -/

/-- Bytes written behind the bytes held read back behind them (R49). -/
theorem Memory.readAll_writeAll_append {era : Nat} {m : Memory} {b : List Byte} (vs : List Byte)
    (hb : m.readAll era 0 b.length = b) :
    (m.writeAll b.length vs).readAll era 0 (b.length + vs.length) = b ++ vs := by
  refine List.ext_getElem? fun j => ?_
  by_cases hj : j < b.length + vs.length
  · rw [Memory.readAll_getElem? _ hj, Nat.zero_add]
    by_cases hlt : j < b.length
    · have hbyte := Memory.readAll_getElem? (era := era) (off := 0) m hlt
      rw [hb, Nat.zero_add] at hbyte
      rw [Memory.read_writeAll_outside _ _ (.inl hlt), List.getElem?_append_left hlt, hbyte]
    · obtain ⟨i, rfl⟩ := Nat.exists_eq_add_of_le (Nat.le_of_not_lt hlt)
      rw [← Memory.read_writeAll era m (by omega : i < vs.length), List.getElem?_append_right (Nat.le_add_right _ _),
        Nat.add_sub_cancel_left]
  · rw [List.getElem?_eq_none (by simpa using hj), List.getElem?_eq_none (by simpa using hj)]

/-! ## Fragments -/

/-- A well-shaped report with a valid header that is fragment j of n of packet k (R67, R105). -/
structure IsFragment (k : Byte) (n j : Nat) (r : Report) : Prop where
  length : r.length = 61
  header : hdrOk r = true
  packet : packetIdx r = k
  count : (fragCount r).toNat = n
  index : (fragIdx r).toNat = j

theorem IsFragment.count_le {k : Byte} {n j : Nat} {r : Report} (h : IsFragment k n j r) : n ≤ 15 := by
  have hh := (hdrOk_iff r).1 h.header
  have hc := h.count
  omega

theorem IsFragment.payload_length_le {k : Byte} {n j : Nat} {r : Report} (h : IsFragment k n j r) :
    (payload r).length ≤ 56 :=
  payload_length h.length h.header ▸ payloadLen_le h.header

/-- In IDLE the first fragment of any packet violates nothing (R109). -/
theorem Rasm.violation_of_idle {g : Rasm} {k : Byte} {n : Nat} {r : Report} (hst : g.st = .idle)
    (hr : IsFragment k n 1 r) : g.violation r = none := by
  simp [Rasm.violation, hst, hr.header, hr.index]

/-- In ACTIVE the fragment the registers name violates nothing (R109). -/
theorem Rasm.violation_of_active {g : Rasm} {r : Report} (hst : g.st = .active)
    (hr : IsFragment g.pkt g.cnt.toNat g.next.toNat r) : g.violation r = none := by
  simp [Rasm.violation, hst, hr.header, hr.packet, hr.count, hr.index]

/-! ## The registers between the fragments of a packet (R109) -/

/-- The registers hold the bytes b of the first j fragments of n of packet k and take the next one. -/
structure Rasm.Expects (k : Byte) (n j : Nat) (b : List Byte) (g : Rasm) : Prop where
  st : g.st = .idle ∨ g.st = .active
  next_accepted : ∀ r, IsFragment k n (j + 1) r → g.violation r = none
  storeAt : g.storeAt = b.length
  length_le : b.length ≤ 56 * j
  bytes : g.buf.readAll g.era 0 b.length = b

/-- The registers hold a whole packet, the bytes b. -/
structure Rasm.Completed (b : List Byte) (g : Rasm) : Prop where
  st : g.st = .complete
  len : g.len.toNat = b.length
  length_le : b.length ≤ 840
  bytes : g.buf.readAll g.era 0 b.length = b

/-- In IDLE the registers hold nothing and take the first fragment of any packet. -/
theorem Rasm.expects_of_idle {g : Rasm} (hst : g.st = .idle) (k : Byte) (n : Nat) : g.Expects k n 0 [] where
  st := .inl hst
  next_accepted _ hr := Rasm.violation_of_idle hst hr
  storeAt := by simp [Rasm.storeAt, hst]
  length_le := by simp
  bytes := rfl

/-- The registers after a report is accepted and its payload is stored (R109). -/
abbrev Rasm.stored (r : Report) (g : Rasm) : Rasm := g.accepted r (g.buf.writeAll g.storeAt (payload r))

section Expects

variable {g : Rasm} {k : Byte} {n j : Nat} {b : List Byte} {r : Report}
  (hg : g.Expects k n j b) (hr : IsFragment k n (j + 1) r)

include hg hr

/-- All fragments of a packet fit RBUF (R40). -/
theorem Rasm.Expects.room : g.storeAt + (payload r).length ≤ 840 := by
  have hn := hr.count_le
  have hp := hr.payload_length_le
  have hidx := (hdrOk_iff r).1 hr.header
  rw [hr.count, hr.index] at hidx
  have hb := hg.length_le
  rw [hg.storeAt]
  omega

theorem Rasm.Expects.push_eq : g.push r = .ok (g.stored r, .ok (g.acceptValue r)) := by
  rw [Rasm.push_of_no_violation hr.length hg.st (hg.next_accepted r hr), Rasm.accept_eq, if_pos (hg.room hr)]

theorem Rasm.Expects.stored_len : (g.stored r).len.toNat = (b ++ payload r).length := by
  rw [Rasm.accepted_len_toNat hr.length (hg.next_accepted r hr) _ (hg.room hr), hg.storeAt, List.length_append]

omit hr in
theorem Rasm.Expects.stored_bytes :
    (g.stored r).buf.readAll (g.stored r).era 0 (b ++ payload r).length = b ++ payload r := by
  rw [Rasm.accepted_buf, Rasm.accepted_era, hg.storeAt, List.length_append]
  exact Memory.readAll_writeAll_append _ hg.bytes

theorem Rasm.Expects.stored_st : (g.stored r).st = if j + 1 = n then .complete else .active := by
  rw [Rasm.accepted_st (hg.next_accepted r hr), hr.index, hr.count]

/-- A fragment before the last leaves the registers waiting for the next one. -/
theorem Rasm.Expects.stored_expects (hj : j + 1 ≠ n) : (g.stored r).Expects k n (j + 1) (b ++ payload r) := by
  have hv := hg.next_accepted r hr
  have hst := hg.stored_st hr
  rw [if_neg hj] at hst
  have hpkt : (g.stored r).pkt = k := by
    obtain ⟨-, -, hrest⟩ := Rasm.violation_none hv
    by_cases hi : g.st = .idle
    · simp [Rasm.accepted, hi, hr.packet]
    · simp [Rasm.accepted, hi, ← (hrest hi).1, hr.packet]
  have hcnt := Rasm.accepted_cnt_toNat hv (g.buf.writeAll g.storeAt (payload r))
  have hnext := Rasm.accepted_next_toNat hv (g.buf.writeAll g.storeAt (payload r))
  rw [hr.count] at hcnt
  rw [hr.index] at hnext
  have hb := hg.length_le
  have hp := hr.payload_length_le
  refine ⟨.inr hst, fun r' hr' => Rasm.violation_of_active hst ?_, ?_, ?_, hg.stored_bytes⟩
  · rwa [hpkt, hcnt, hnext]
  · rw [Rasm.storeAt, if_neg (by simp [hst]), hg.stored_len hr]
  · rw [List.length_append]
    omega

/-- The last fragment completes the packet. -/
theorem Rasm.Expects.stored_completed (hj : j + 1 = n) : (g.stored r).Completed (b ++ payload r) where
  st := by rw [hg.stored_st hr, if_pos hj]
  len := hg.stored_len hr
  length_le := by
    have hroom := hg.room hr
    rwa [hg.storeAt, ← List.length_append] at hroom
  bytes := hg.stored_bytes

end Expects

/-! ## The fragments of a packet in order (R113, R114) -/

/-- RASM_PUSH answers Ok to each report of a list in turn, from the first registers to the last. -/
inductive Rasm.Accepts : List Report → Rasm → Rasm → Prop where
  | nil (g : Rasm) : Rasm.Accepts [] g g
  | cons {r : Report} {rs : List Report} {g g₁ g₂ : Rasm} {v : Value} (head : g.push r = .ok (g₁, .ok v))
      (tail : Rasm.Accepts rs g₁ g₂) : Rasm.Accepts (r :: rs) g g₂

/-- The reports are the fragments of packet k behind the first j, up to the last one. -/
abbrev AreFragmentsFrom (k : Byte) (j : Nat) (rs : List Report) : Prop :=
  ∀ i r, rs[i]? = some r → IsFragment k (j + rs.length) (j + i + 1) r

/-- The remaining fragments of a packet are accepted one after the other and complete it. -/
theorem Rasm.Expects.accepts_rest {k : Byte} {rs : List Report} (hne : rs ≠ []) {j : Nat} {b : List Byte} {g : Rasm}
    (hg : g.Expects k (j + rs.length) j b) (hrs : AreFragmentsFrom k j rs) :
    ∃ g', Rasm.Accepts rs g g' ∧ g'.Completed (b ++ rs.flatMap payload) := by
  induction rs generalizing j b g with
  | nil => exact absurd rfl hne
  | cons r rs ih =>
    have hr : IsFragment k (j + (r :: rs).length) (j + 1) r := hrs 0 r rfl
    cases rs with
    | nil => exact ⟨_, .cons (hg.push_eq hr) (.nil _), by simpa using hg.stored_completed hr (by simp)⟩
    | cons r' rs =>
      have hn : j + (r :: r' :: rs).length = j + 1 + (r' :: rs).length := by simp only [List.length_cons]; omega
      have hg' := hg.stored_expects hr (by simp only [List.length_cons]; omega)
      obtain ⟨g', hacc, hdone⟩ := ih (by simp) (hn ▸ hg') fun i x hx => by
        have hfrag := hrs (i + 1) x (by simpa using hx)
        rwa [hn, ← Nat.add_assoc, Nat.add_right_comm j i 1] at hfrag
      exact ⟨g', .cons (hg.push_eq hr) hacc, by simpa using hdone⟩

/-- From IDLE the fragments of a packet in order complete it. -/
theorem Rasm.accepts_of_idle {g : Rasm} (hst : g.st = .idle) {k : Byte} {rs : List Report} (hne : rs ≠ [])
    (hrs : AreFragmentsFrom k 0 rs) : ∃ g', Rasm.Accepts rs g g' ∧ g'.Completed (rs.flatMap payload) :=
  (Rasm.expects_of_idle hst k _).accepts_rest hne hrs

/-- RASM_PUSH answers Ok in no COMPLETE state (R109). -/
theorem Rasm.st_ne_complete_of_push_ok {r : Report} {g g' : Rasm} {v : Value} (h : g.push r = .ok (g', .ok v)) :
    g.st ≠ .complete := by
  intro hst
  by_cases hl : r.length = 61
  · simp [Rasm.push_of_complete hl hst] at h
  · simp [Rasm.push_of_length_ne g hl] at h

/-- The loop of R113 over reports that are accepted. -/
theorem pushAll_of_accepts {rs : List Report} {g g' : Rasm} (h : Rasm.Accepts rs g g') :
    pushAll rs g = .ok (g', none) := by
  induction h with
  | nil g => rfl
  | cons head _ ih =>
    rw [pushAll, if_neg (Rasm.st_ne_complete_of_push_ok head), head]
    exact ih

theorem Rasm.Completed.batchEnd_eq {b : List Byte} {g : Rasm} (h : g.Completed b) :
    batchEnd g = .ok (.ok (.seq b)) := by
  have hroom := h.length_le
  have hread : memRead g.era 0 g.len.toNat g.buf = .ok b := by
    rw [h.len]
    exact memRead_ok.2 ⟨by omega, h.bytes.symm⟩
  rw [batchEnd, if_pos h.st, hread]

theorem Rasm.Completed.take_eq {b : List Byte} {g : Rasm} (h : g.Completed b) :
    g.take = .ok (g.taken, .ok (.seq b)) := by
  rw [Rasm.take_of_complete h.st (h.len ▸ h.length_le), h.len, h.bytes]

/-- FRAG_REASSEMBLE of the fragments of a packet in order is the concatenation of their payloads (R113). -/
theorem batchResult_of_fragments {k : Byte} {rs : List Report} (hne : rs ≠ []) (hrs : AreFragmentsFrom k 0 rs) :
    batchResult rs = .ok (.ok (.seq (rs.flatMap payload))) := by
  have hshape : rs.findIdx? (fun r => !reportShaped r) = none := by
    refine List.findIdx?_eq_none_iff.2 fun r hr => ?_
    obtain ⟨i, hi⟩ := List.mem_iff_getElem?.1 hr
    simp [(reportShaped_iff r).2 (hrs i r hi).length]
  obtain ⟨g, hacc, hdone⟩ := Rasm.accepts_of_idle Rasm.reset_st hne hrs
  simp [batchResult, hshape, hne, pushAll_of_accepts hacc, hdone.batchEnd_eq]

theorem exec_fragReassemble_of_ok {rs : List Report} {r : Result} (h : batchResult rs = .ok r) (s : State) :
    exec (.fragReassemble rs) s = s.reply r := by
  show execFragReassemble rs s = _
  rw [execFragReassemble, h]

/-! ## Splitting a packet (R102, R103) -/

theorem one_le_fragsFor (n : Nat) : 1 ≤ fragsFor n := Nat.le_max_left _ _

/-- The fragments have room for all bytes. -/
theorem le_fragsFor_mul (n : Nat) : n ≤ 56 * fragsFor n := by
  simp only [fragsFor, Config.fragPayload]
  omega

theorem fragsFor_le_iff (n : Nat) : fragsFor n ≤ 15 ↔ n ≤ 840 := by
  simp only [fragsFor, Config.fragPayload]
  omega

theorem chunk_succ (p : List Byte) (j : Nat) : chunk p (j + 1) = (p.drop (56 * j)).take 56 := by
  simp only [chunk, slice, Config.fragPayload, Nat.add_sub_cancel]
  rw [List.take_eq_take_iff, List.length_drop]
  omega

/-- The first m chunks are the first 56 m bytes. -/
theorem flatMap_chunk (p : List Byte) (m : Nat) :
    (List.range m).flatMap (fun j => chunk p (j + 1)) = p.take (56 * m) := by
  induction m with
  | zero => simp
  | succ m ih =>
    rw [List.range_succ, List.flatMap_append, ih, List.flatMap_singleton, chunk_succ, Nat.mul_succ, List.take_add]

@[simp] theorem fragSize_mkReport (k : Byte) (n j : Nat) (c : List Byte) :
    fragSize (mkReport k n j c) = BitVec.ofNat 8 (c.length + 3) := rfl
@[simp] theorem packetIdx_mkReport (k : Byte) (n j : Nat) (c : List Byte) : packetIdx (mkReport k n j c) = k := rfl
@[simp] theorem fragCount_mkReport (k : Byte) (n j : Nat) (c : List Byte) :
    fragCount (mkReport k n j c) = BitVec.ofNat 8 n := rfl
@[simp] theorem fragIdx_mkReport (k : Byte) (n j : Nat) (c : List Byte) :
    fragIdx (mkReport k n j c) = BitVec.ofNat 8 j := rfl

/-- The report made of at most 56 bytes is the fragment it says (R102, R69). -/
theorem isFragment_mkReport (k : Byte) {n j : Nat} {c : List Byte} (hc : c.length ≤ 56) (hn : n ≤ 15) (hj : 1 ≤ j)
    (hjn : j ≤ n) : IsFragment k n j (mkReport k n j c) := by
  have hsize : (fragSize (mkReport k n j c)).toNat = c.length + 3 := by
    rw [fragSize_mkReport, BitVec.toNat_ofNat]
    omega
  have hcount : (fragCount (mkReport k n j c)).toNat = n := by
    rw [fragCount_mkReport, BitVec.toNat_ofNat]
    omega
  have hindex : (fragIdx (mkReport k n j c)).toNat = j := by
    rw [fragIdx_mkReport, BitVec.toNat_ofNat]
    omega
  refine ⟨?_, (hdrOk_iff _).2 ?_, packetIdx_mkReport k n j c, hcount, hindex⟩
  · simp only [mkReport, zeros, Config.fragPayload, List.length_append, List.length_cons, List.length_nil,
      List.length_replicate]
    omega
  · rw [hsize, hcount, hindex]
    omega

/-- Its payload is those bytes (R106). -/
theorem payload_mkReport (k : Byte) (n j : Nat) {c : List Byte} (hc : c.length ≤ 56) :
    payload (mkReport k n j c) = c := by
  have hlen : payloadLen (mkReport k n j c) = c.length := by
    rw [payloadLen, fragSize_mkReport, BitVec.toNat_ofNat]
    simp only [Config.fragSizeBias]
    omega
  rw [payload, slice, hlen, Nat.add_sub_cancel_left]
  simp [mkReport, Config.fragHdrLen]

theorem length_chunk_le (p : List Byte) (j : Nat) : (chunk p (j + 1)).length ≤ 56 := by
  rw [chunk_succ]
  exact List.length_take_le _ _

@[simp] theorem length_splitReports (p : List Byte) (k : Byte) : (splitReports p k).length = fragsFor p.length := by
  simp [splitReports]

theorem splitReports_ne_nil (p : List Byte) (k : Byte) : splitReports p k ≠ [] :=
  List.ne_nil_of_length_pos ((length_splitReports p k).symm ▸ one_le_fragsFor _)

/-- The reports of a split packet are its fragments in order (R103). -/
theorem areFragmentsFrom_splitReports {p : List Byte} (hp : p.length ≤ 840) (k : Byte) :
    AreFragmentsFrom k 0 (splitReports p k) := by
  intro i r hr
  have hi : i < fragsFor p.length := length_splitReports p k ▸ (List.getElem?_eq_some_iff.1 hr).1
  obtain rfl : mkReport k (fragsFor p.length) (i + 1) (chunk p (i + 1)) = r := by
    simpa [splitReports, hi] using hr
  rw [length_splitReports, Nat.zero_add, Nat.zero_add]
  exact isFragment_mkReport k (length_chunk_le p i) ((fragsFor_le_iff _).2 hp) (by omega) hi

/-- The payloads of a split packet are the packet (R103). -/
theorem flatMap_payload_splitReports (p : List Byte) (k : Byte) : (splitReports p k).flatMap payload = p := by
  have hpay : ∀ j, payload (mkReport k (fragsFor p.length) (j + 1) (chunk p (j + 1))) = chunk p (j + 1) :=
    fun j => payload_mkReport k _ _ (length_chunk_le p j)
  rw [splitReports, List.flatMap_map]
  simp only [hpay]
  rw [flatMap_chunk, List.take_of_length_le (le_fragsFor_mul _)]

/-- FRAG_SPLIT of a packet that fits (R102). -/
theorem exec_fragSplit_of_fits {p : List Byte} {k : Byte} (hk : 1 ≤ k.toNat) (hk' : k.toNat ≤ 15)
    (hp : p.length ≤ 840) (s : State) : exec (.fragSplit p k) s = s.reply (.ok (.reports (splitReports p k))) := by
  have hfrags : ¬ fragsFor p.length > 15 := Nat.not_lt.2 ((fragsFor_le_iff _).2 hp)
  have hidx : ¬ (k.toNat < 1 ∨ k.toNat > 15) := by omega
  show execFragSplit p k s = _
  rw [execFragSplit, if_neg hidx, if_neg hfrags]

/-- Batch reassembly of a split packet is the packet (R115). -/
theorem batchResult_splitReports {p : List Byte} (hp : p.length ≤ 840) (k : Byte) :
    batchResult (splitReports p k) = .ok (.ok (.seq p)) := by
  rw [batchResult_of_fragments (splitReports_ne_nil p k) (areFragmentsFrom_splitReports hp k),
    flatMap_payload_splitReports]

/-- From IDLE the reports of a split packet are accepted and complete it (R114, R115). -/
theorem Rasm.accepts_splitReports {g : Rasm} (hst : g.st = .idle) {p : List Byte} (hp : p.length ≤ 840) (k : Byte) :
    ∃ g', Rasm.Accepts (splitReports p k) g g' ∧ g'.Completed p := by
  obtain ⟨g', hacc, hdone⟩ :=
    Rasm.accepts_of_idle hst (splitReports_ne_nil p k) (areFragmentsFrom_splitReports hp k)
  exact ⟨g', hacc, flatMap_payload_splitReports p k ▸ hdone⟩

end Sys2Proof.Machine
end

section
/-! PROOFS. The frame NEC_ENCODE makes, its length, and what NEC_DECODE reads in it (R170, R175, R183, R188). -/

namespace Sys2Proof.Machine

/-! ## The runs of an encoded frame (R178) -/

/-- The two runs of a bit (R175). -/
def bitRuns (bit : Bool) : List Run := [⟨true, 35⟩, ⟨false, if bit then 105 else 35⟩]

/-- A unit put in front of runs stands in a first run of its own polarity (R178). -/
theorem headMark_consUnit (u : Byte) (rs : List Run) : headMark (polarity u) (consUnit u rs) := by
  cases rs with
  | nil => exact ⟨_, _, rfl, rfl⟩
  | cons r rs =>
    by_cases h : r.mark = polarity u
    · exact ⟨_, _, if_pos h, h⟩
    · exact ⟨_, _, if_neg h, rfl⟩

/-- No list of runs starts with both polarities. -/
theorem not_headMark_of_headMark {m : Bool} {rs : List Run} (h : headMark m rs) : ¬ headMark (!m) rs := by
  obtain ⟨r, rest, rfl, hr⟩ := h
  rintro ⟨r', rest', heq, hr'⟩
  obtain ⟨rfl, -⟩ := List.cons.inj heq
  simp [hr] at hr'

/-- A mark and a space are a run each, where no space follows (R178). -/
theorem runs_mark_space {m p : Nat} (hm : 1 ≤ m) (hp : 1 ≤ p) {q : List Byte} (hq : ¬ headMark false (runs q)) :
    runs (timingUnits true m ++ timingUnits false p ++ q) = ⟨true, m⟩ :: ⟨false, p⟩ :: runs q := by
  have hspace := runs_timingUnits_append false q hp hq
  have hhead : ¬ headMark true (runs (timingUnits false p ++ q)) := by
    rw [hspace]
    exact not_headMark_of_headMark ⟨_, _, rfl, rfl⟩
  rw [List.append_assoc, runs_timingUnits_append true _ hm hhead, hspace]

theorem runs_bitUnits_append (bit : Bool) {q : List Byte} (hq : ¬ headMark false (runs q)) :
    runs (bitUnits bit ++ q) = bitRuns bit ++ runs q := by
  have h := fun p hp => runs_mark_space (m := 35) (p := p) (by decide) hp hq
  cases bit with
  | false => exact h 35 (by decide)
  | true => exact h 105 (by decide)

theorem runs_flatMap_bitUnits_append (bits : List Bool) {q : List Byte} (hq : headMark true (runs q)) :
    runs (bits.flatMap bitUnits ++ q) = bits.flatMap bitRuns ++ runs q := by
  induction bits with
  | nil => rfl
  | cons bit bits ih =>
    have hhead : headMark true (bits.flatMap bitRuns ++ runs q) := by
      cases bits with
      | nil => exact hq
      | cons => exact ⟨_, _, rfl, rfl⟩
    rw [List.flatMap_cons, List.append_assoc, runs_bitUnits_append bit (ih ▸ not_headMark_of_headMark hhead), ih,
      List.flatMap_cons, List.append_assoc]

/-- The stop mark starts a mark, whatever follows the frame (R187). -/
theorem headMark_stop_append (tail : List Byte) :
    headMark true (runs (timingUnits true (ticksOf Config.stopMark) ++ tail)) := by
  have hunit : timingUnits true (ticksOf Config.stopMark) = [timingUnit true 35] := by decide
  rw [hunit, List.singleton_append, runs_cons tail (by decide)]
  exact headMark_consUnit (timingUnit true 35) (runs tail)

/-- The runs of an encoded frame up to the stop mark: the leader's two and two for each bit (R175, R178). -/
theorem runs_necEncode_append (a c : Byte) (tail : List Byte) :
    runs (necEncode a c ++ tail) = ⟨true, 563⟩ :: ⟨false, 281⟩ :: ((frameBits a c).flatMap bitRuns ++
      runs (timingUnits true (ticksOf Config.stopMark) ++ tail)) := by
  have hstop := headMark_stop_append tail
  have hbits := runs_flatMap_bitUnits_append (frameBits a c) hstop
  have hhead : headMark true (runs ((frameBits a c).flatMap bitUnits ++
      (timingUnits true (ticksOf Config.stopMark) ++ tail))) := hbits ▸ ⟨_, _, rfl, rfl⟩
  rw [necEncode, List.append_assoc, List.append_assoc, leaderUnits, ← hbits]
  exact runs_mark_space (m := 563) (p := 281) (by decide) (by decide) (not_headMark_of_headMark hhead)

/-! ## Decoding (R182, R183) -/

/-- Pairs read back as the bits they stand for, whatever follows (R182). -/
theorem pairBits_flatMap_bitRuns (bits : List Bool) (k : Nat) (rest : List Run) :
    pairBits bits.length k (bits.flatMap bitRuns ++ rest) = .ok bits := by
  induction bits generalizing k with
  | nil => rfl
  | cons bit bits ih =>
    have hbit : bitOf (if bit then 105 else 35) = bit := by cases bit <;> decide
    simp [bitRuns, pairBits, ih, hbit]

/-- A byte read bit 0 first is the byte whose bits were listed so (R43). -/
theorem byteOfBits_bitsOf (b : Byte) : byteOfBits (bitsOf b) = b := by
  revert b
  decide +kernel

/-- Decoding an encoded frame, whatever follows it (R187, R188). -/
theorem necDecode_necEncode_append (a c : Byte) (tail : List Byte) :
    necDecode Config.tol (necEncode a c ++ tail) = .ok (.frame a c) := by
  have hmark : inwin Config.tol 563 Config.leaderMark = true := by decide
  have hspace : inwin Config.tol 281 Config.leaderSpace = true := by decide
  have hpairs : ∀ rest, pairBits Config.necBits 0 ((frameBits a c).flatMap bitRuns ++ rest) = .ok (frameBits a c) :=
    pairBits_flatMap_bitRuns (frameBits a c) 0
  have h0 : frameByte (frameBits a c) 0 = a := byteOfBits_bitsOf a
  have h1 : frameByte (frameBits a c) 1 = a ^^^ 0xFF#8 := byteOfBits_bitsOf _
  have h2 : frameByte (frameBits a c) 2 = c := byteOfBits_bitsOf c
  have h3 : frameByte (frameBits a c) 3 = c ^^^ 0xFF#8 := byteOfBits_bitsOf _
  simp [necDecode, captureRuns, runs_necEncode_append, decodeRuns, hmark, decodeAfterMark, hspace, decodeFrame, hpairs,
    h0, h1, h2, h3, checkFrame]

theorem necDecode_necEncode (a c : Byte) : necDecode Config.tol (necEncode a c) = .ok (.frame a c) := by
  simpa using necDecode_necEncode_append a c []

/-! ## The length of an encoded frame (R176) -/

theorem length_flatMap_bitUnits (bits : List Bool) : (bits.flatMap bitUnits).length = 2 * bits.length := by
  have hbit : ∀ bit, (bitUnits bit).length = 2 := by decide
  simp [List.length_flatMap, hbit, Nat.mul_comm]

theorem length_necEncode (a c : Byte) : (necEncode a c).length = 73 := by
  have hleader : leaderUnits.length = 8 := by decide
  have hstop : (timingUnits true (ticksOf Config.stopMark)).length = 1 := by decide
  have hbits : (frameBits a c).length = 32 := rfl
  rw [necEncode, List.length_append, List.length_append, hleader, hstop, length_flatMap_bitUnits, hbits]

end Sys2Proof.Machine
end

section
/-! PROOFS. The host's sequences of operations (R81): what each sends, and what comes back of it. -/

namespace Sys2Proof.Machine

/-! ## Performing operations (R80) -/

/-- An operation that answers Ok with a value of the kind its rule names lets the sequence go on. -/
theorem perform_of_next {α β : Type} {i : Instr} {pick : Value → Option α} {s t : State} {rs : List Result} {v : Value}
    {a : α} (he : exec i s = .next t) (hr : t.results = rs ++ [.ok v]) (hp : pick v = some a)
    (k : α → State → HostRun β) : perform i pick s k = k a t := by
  simp [perform, nextOf, he, hr, hp]

/-- Such an operation that writes no register. -/
theorem perform_of_reply {α β : Type} {i : Instr} {pick : Value → Option α} {s : State} {v : Value} {a : α}
    (he : exec i s = s.reply (.ok v)) (hp : pick v = some a) (k : α → State → HostRun β) :
    perform i pick s k = k a (s.answer (.ok v)) :=
  perform_of_next he (State.answer_results _ s) hp k

/-! ## The operations of the framer (R141, R143, R149) -/

theorem knownCmdType_iff (t : Byte) : knownCmdType t = true ↔ t ∈ Claims.sevenTypes := List.contains_iff_mem

/-- PKT_FRAME of a known type under an id in range (R141). -/
theorem exec_pktFrame_of_known {i t : Byte} (hi : 1 ≤ i.toNat) (hi' : i.toNat ≤ 127) (ht : t ∈ Claims.sevenTypes)
    (p : List Byte) (s : State) : exec (.pktFrame i t p) s = s.reply (.ok (.seq (framePacket i t p))) := by
  have hrange : ¬ (i.toNat < 1 ∨ i.toNat > 127) := by omega
  have hknown : ¬ knownCmdType t = false := by simp [(knownCmdType_iff t).2 ht]
  show execPktFrame i t p s = _
  rw [execPktFrame, if_neg hrange, if_neg hknown]

theorem length_framePacket (i t : Byte) (p : List Byte) : (framePacket i t p).length = p.length + 6 := by
  simp [framePacket, startMarker, endMarker]

/-- Opening a framed packet gives its parts back (R149). -/
theorem unframe_framePacket (i t : Byte) (p : List Byte) : unframe (framePacket i t p) = .ok (.packet i t p) := by
  have hlen := length_framePacket i t p
  have hend : slice (framePacket i t p) (p.length + 4) (p.length + 6) = endMarker := by
    rw [slice, framePacket, List.drop_left' (by simp [startMarker])]
    simp [endMarker]
  have hdata : slice (framePacket i t p) 4 (p.length + 4) = p := by
    simp [slice, framePacket, startMarker]
  have hstart : slice (framePacket i t p) 0 2 = startMarker := rfl
  have htwo : p.length + 6 - 2 = p.length + 4 := rfl
  have hmin : ¬ p.length + 6 < Config.frameMin := by simp [Config.frameMin]
  simp only [unframe, hlen, htwo, hend, hdata, hstart, if_neg hmin, ne_eq, not_true_eq_false, if_false]
  rfl

/-! ## Sending (R81) -/

/-- A sequence generator issues no 0 (R100, R140). -/
theorem one_le_seqNext (top v : Nat) : 1 ≤ seqNext top v := Nat.le_add_left _ _

/-- A register and an operand with room for the top hold what a sequence generator issues. -/
theorem toNat_ofNat_seqNext {top w : Nat} (h : 0 < top) (hw : top < 2 ^ w) (v : Nat) :
    (BitVec.ofNat w (seqNext top v)).toNat = seqNext top v :=
  (BitVec.toNat_ofNat _ _).trans (Nat.mod_eq_of_lt ((seqNext_le h v).trans_lt hw))

/-- SEQ_NEXT_CMD gives the sequence the next command id, which CMD_SEQ then holds (R140). -/
theorem perform_seqNextCmd (s : State) :
    ∃ (i : Byte) (u : State), i.toNat = seqNext 127 s.cmdSeq.toNat ∧ u.cmdSeq.toNat = i.toNat ∧ u.pktSeq = s.pktSeq ∧
      ∀ {β : Type} (k : Byte → State → HostRun β), perform .seqNextCmd pickU8 s k = k i u := by
  have hi := toNat_ofNat_seqNext (top := 127) (w := 8) (by decide) (by decide) s.cmdSeq.toNat
  have hreg := toNat_ofNat_seqNext (top := 127) (w := 7) (by decide) (by decide) s.cmdSeq.toNat
  refine ⟨_, _, hi, ?_, ?_, perform_of_next (pick := pickU8) (exec_seqNextCmd s) rfl rfl⟩
  · exact hreg.trans hi.symm
  · rfl

/-- SEQ_NEXT_PKT gives the sequence the next packet index, which PKT_SEQ then holds (R100). -/
theorem perform_seqNextPkt (s : State) :
    ∃ (j : Byte) (u : State), j.toNat = seqNext 15 s.pktSeq.toNat ∧ u.pktSeq.toNat = j.toNat ∧ u.cmdSeq = s.cmdSeq ∧
      ∀ {β : Type} (k : Byte → State → HostRun β), perform .seqNextPkt pickU8 s k = k j u := by
  have hj := toNat_ofNat_seqNext (top := 15) (w := 8) (by decide) (by decide) s.pktSeq.toNat
  have hreg := toNat_ofNat_seqNext (top := 15) (w := 4) (by decide) (by decide) s.pktSeq.toNat
  refine ⟨_, _, hj, ?_, ?_, perform_of_next (pick := pickU8) (exec_seqNextPkt s) rfl rfl⟩
  · exact hreg.trans hj.symm
  · rfl

/-- tx.cmd of a known type and data that fits: the reports of the framed packet, under the next command id and packet
index, which the two registers then hold (R81, R100, R140). -/
theorem txCmd_of_fits {t : Byte} (ht : t ∈ Claims.sevenTypes) {d : List Byte} (hd : d.length ≤ 834) (s : State) :
    ∃ (i k : Byte) (u : State), i.toNat = seqNext 127 s.cmdSeq.toNat ∧ k.toNat = seqNext 15 s.pktSeq.toNat ∧
      u.cmdSeq.toNat = i.toNat ∧ u.pktSeq.toNat = k.toNat ∧
      txCmd t d s = .done (splitReports (framePacket i t d) k) u := by
  obtain ⟨i, u, hi, hcmd, hkeep, hnextCmd⟩ := perform_seqNextCmd s
  have hiRange : 1 ≤ i.toNat ∧ i.toNat ≤ 127 := hi ▸ ⟨one_le_seqNext _ _, seqNext_le (by decide) _⟩
  have hframe := exec_pktFrame_of_known hiRange.1 hiRange.2 ht d u
  obtain ⟨k, v, hk, hpkt, hkeep', hnextPkt⟩ := perform_seqNextPkt (u.answer (.ok (.seq (framePacket i t d))))
  have hkRange : 1 ≤ k.toNat ∧ k.toNat ≤ 15 := hk ▸ ⟨one_le_seqNext _ _, seqNext_le (by decide) _⟩
  have hfits : (framePacket i t d).length ≤ 840 := by rw [length_framePacket]; omega
  have hsplit := exec_fragSplit_of_fits hkRange.1 hkRange.2 hfits v
  rw [State.answer_pktSeq, hkeep] at hk
  refine ⟨i, k, v.answer (.ok (.reports (splitReports (framePacket i t d) k))), hi, hk, ?_, hpkt, ?_⟩
  · rw [State.answer_cmdSeq, hkeep', State.answer_cmdSeq, hcmd]
  · rw [txCmd, hnextCmd, perform_of_reply (pick := pickSeq) hframe rfl, hnextPkt,
      perform_of_reply (pick := pickReports) hsplit rfl]

/-- tx.nec sends the frequency index and the encoded frame as DATA (R81). -/
theorem txNec_eq_txCmd (f a c : Byte) (s : State) : ∃ u, txNec f a c s = txCmd 0x44#8 (f :: necEncode a c) u := by
  have hencode : exec (.necEncode a c) s = s.reply (.ok (.seq (necEncode a c))) := rfl
  have hpack (w : State) : exec (.dataPack f (necEncode a c)) w = w.reply (.ok (.seq (f :: necEncode a c))) := rfl
  rw [txNec, perform_of_reply (pick := pickSeq) hencode rfl, perform_of_reply (pick := pickSeq) (hpack _) rfl]
  exact ⟨_, rfl⟩

/-! ## Receiving (R81) -/

/-- Reports that are accepted are pushed one after the other. -/
theorem pushEach_of_accepts {rs : List Report} {g : Rasm} {s : State} (h : Rasm.Accepts rs s.rasm g) :
    ∃ t : State, t.rasm = g ∧ ∀ {β : Type} (k : State → HostRun β), pushEach rs s k = k t := by
  generalize hs : s.rasm = g₀ at h
  induction h generalizing s with
  | nil g => exact ⟨s, hs, fun _ => rfl⟩
  | @cons r rs g₀ g₁ g₂ v head _ ih =>
    obtain ⟨t, ht, hrest⟩ := ih (s := { s with rasm := g₁, results := s.results ++ [.ok v] }) rfl
    have hexec : exec (.rasmPush r) s = .next { s with rasm := g₁, results := s.results ++ [.ok v] } := by
      rw [exec_rasmPush, hs, head, State.commit_ok]
    exact ⟨t, ht, fun k => (perform_of_next (pick := some) hexec rfl rfl _).trans (hrest k)⟩

/-- rx.pkt of reports that complete a framed packet opens it (R81, R149). -/
theorem rxPkt_of_accepts {rs : List Report} {g : Rasm} {s : State} {i t : Byte} {d : List Byte}
    (h : Rasm.Accepts rs s.rasm g) (hg : g.Completed (framePacket i t d)) : ∃ v, rxPkt rs s = .done (i, t, d) v := by
  obtain ⟨u, rfl, hpush⟩ := pushEach_of_accepts h
  have htake := (exec_rasmTake u).trans (congrArg u.commit hg.take_eq)
  rw [State.commit_ok] at htake
  have hopen (w : State) : exec (.pktUnframe (framePacket i t d)) w = w.reply (.ok (.packet i t d)) :=
    congrArg (fun r => State.reply r w) (unframe_framePacket i t d)
  rw [rxPkt, hpush, perform_of_next (pick := pickSeq) htake rfl rfl,
    perform_of_reply (pick := pickPacket) (hopen _) rfl]
  exact ⟨_, rfl⟩

/-- rx.nec of reports whose packet holds a frequency index and an encoded frame decodes the frame (R147, R188). -/
theorem rxNec_of_rxPkt {rs : List Report} {s u : State} {i t f a c : Byte}
    (h : rxPkt rs s = .done (i, t, f :: necEncode a c) u) : ∃ v, rxNec true rs s = .done (.frame a c) v := by
  have hdecode (w : State) : exec (.necDecode (necEncode a c)) w = w.reply (.ok (.frame a c)) :=
    congrArg (fun r => State.reply r w) (necDecode_necEncode a c)
  have hunpack : exec (.dataUnpack (f :: necEncode a c)) u = u.reply (.ok (.data f (necEncode a c))) := rfl
  simp only [rxNec, h, if_true]
  rw [perform_of_reply (pick := pickData) hunpack rfl, perform_of_reply (pick := some) (hdecode _) rfl]
  exact ⟨_, rfl⟩

end Sys2Proof.Machine

namespace Sys2Proof.Proofs

open Sys2Proof.Machine Sys2Proof.Claims

/-- Settles O56: the packet framed under the ids issued fits, its reports carry the packet index, and batch reassembly
of a split packet is the packet. -/
theorem sentCommandReassembles : Obligations.SentCommandReassembles := by
  intro t d s s' ht hd
  obtain ⟨i, k, u, hi, hk, hcmd, hpkt, htx⟩ := txCmd_of_fits ht hd s
  have hfits : (framePacket i t d).length ≤ 840 := by rw [length_framePacket]; omega
  refine ⟨_, u, i, htx, hi, hcmd, hpkt.trans hk, fun r hr => ?index, ?reassembles⟩
  case index =>
    obtain ⟨j, hj⟩ := List.mem_iff_getElem?.1 hr
    have hfrag := areFragmentsFrom_splitReports hfits k j r hj
    exact hpkt ▸ congrArg BitVec.toNat hfrag.packet
  case reassembles => exact exec_fragReassemble_of_ok (batchResult_splitReports hfits k) s'

/-- Settles O55: the packet of 80 bytes is split into two reports, which complete it in a block that is IDLE; opened, it
holds the frequency index and the encoded frame. -/
theorem receiveOfSentNecFrame : Obligations.ReceiveOfSentNecFrame := by
  intro f a c s s' hst
  obtain ⟨w, hw⟩ := txNec_eq_txCmd f a c s
  have hdata : (f :: necEncode a c).length = 74 := by rw [List.length_cons, length_necEncode]
  obtain ⟨i, k, u, -, -, -, -, htx⟩ := txCmd_of_fits (t := 0x44#8) (by decide) (d := f :: necEncode a c) (by omega) w
  have hlen : (framePacket i 0x44#8 (f :: necEncode a c)).length = 80 := by rw [length_framePacket, hdata]
  obtain ⟨g, hacc, hdone⟩ := Rasm.accepts_splitReports hst (hlen.le.trans (by decide)) k
  obtain ⟨v, hv⟩ := rxPkt_of_accepts hacc hdone
  obtain ⟨x, hx⟩ := rxNec_of_rxPkt hv
  refine ⟨_, u, x, hw.trans htx, ?_, hx⟩
  rw [length_splitReports, hlen]
  rfl

end Sys2Proof.Proofs
end

section
/-! PROOFS. The sequence of packet indices, and what FRAG_SPLIT and RPT_PARSE answer in the terms of the rules (R100 to
R106). -/

namespace Sys2Proof.Machine

/-! ## Packet indices (R100, R101) -/

/-- The packet index after v is another one (R101). -/
theorem seqNext_ne {top v : Nat} (h : 1 < top) (hv : v ≤ top) : seqNext top v ≠ v := by
  unfold seqNext
  obtain hlt | rfl := hv.lt_or_eq
  · rw [Nat.mod_eq_of_lt hlt]
    omega
  · rw [Nat.mod_self]
    omega

/-- What PKT_SEQ holds after SEQ_NEXT_PKT (R100). -/
theorem pktSeq_of_seqNextPkt {s t : State} (h : exec .seqNextPkt s = .next t) :
    t.pktSeq.toNat = seqNext 15 s.pktSeq.toNat := by
  cases h
  exact toNat_ofNat_seqNext (by decide) (by decide) _

/-! ## The fields of a report as the rules index them (R67, R105, R106) -/

theorem hdrOk_iff_hdrValid (r : Report) : hdrOk r = true ↔ Claims.hdrValid r := hdrOk_iff r

/-- The payload by its end (R106) is the payload by its length. -/
theorem payload_eq_payloadOf (r : Report) : payload r = Claims.payloadOf r := by
  rw [payload, slice, Nat.add_sub_cancel_left]
  rfl

/-- A list is in order exactly where it is all the fragments of one packet. -/
theorem inOrder_iff {rs : List Report} : Claims.InOrder rs ↔ rs ≠ [] ∧ ∃ k, AreFragmentsFrom k 0 rs := by
  constructor
  · rintro ⟨hne, h⟩
    refine ⟨hne, packetIdx (rs.getD 0 []), fun i r hr => ?_⟩
    obtain ⟨hlen, hhdr, hpkt, hcnt, hidx⟩ := h i r hr
    exact ⟨hlen, (hdrOk_iff_hdrValid r).2 hhdr, BitVec.eq_of_toNat_eq hpkt, by rwa [Nat.zero_add],
      by rwa [Nat.zero_add]⟩
  · rintro ⟨hne, k, h⟩
    have hpos := List.length_pos_of_ne_nil hne
    have hfirst : packetIdx (rs.getD 0 []) = k := by
      rw [List.getD_eq_getElem _ _ hpos]
      exact (h 0 _ (List.getElem?_eq_getElem hpos)).packet
    refine ⟨hne, fun i r hr => ?_⟩
    have hfrag := h i r hr
    rw [Nat.zero_add, Nat.zero_add] at hfrag
    exact ⟨hfrag.length, (hdrOk_iff_hdrValid r).1 hfrag.header,
      congrArg BitVec.toNat (hfrag.packet.trans hfirst.symm), hfrag.count, hfrag.index⟩

/-! ## Splitting (R102) -/

theorem fragsFor_eq_fragments (n : Nat) : fragsFor n = Claims.fragments n := by
  unfold fragsFor Claims.fragments
  simp only [Config.fragPayload]
  split <;> omega

/-- Report j of a split packet is the fragment R102 lists byte by byte. -/
theorem getElem?_splitReports (p : List Byte) (k : Byte) {j : Nat} (hj : j < fragsFor p.length) :
    (splitReports p k)[j]? = some (Claims.fragment p k j) := by
  have hfrag : mkReport k (fragsFor p.length) (j + 1) (chunk p (j + 1)) = Claims.fragment p k j := by
    rw [chunk_succ, fragsFor_eq_fragments]
    rfl
  simp [splitReports, hj, hfrag]

/-- The check of the packet index comes first (R102). -/
theorem exec_fragSplit_of_badIndex {k : Byte} (hk : k.toNat < 1 ∨ 15 < k.toNat) (p : List Byte) (s : State) :
    exec (.fragSplit p k) s = s.reply (.err .badArgument (.num k.toNat)) :=
  if_pos hk

/-- A packet that does not fit gets the number of its fragments (R102). -/
theorem exec_fragSplit_of_tooLong {p : List Byte} {k : Byte} (hk : 1 ≤ k.toNat) (hk' : k.toNat ≤ 15)
    (hp : 840 < p.length) (s : State) :
    exec (.fragSplit p k) s = s.reply (.err .invalidPayload (.num (fragsFor p.length))) := by
  have hfrags : fragsFor p.length > 15 := Nat.lt_of_not_le (mt (fragsFor_le_iff _).1 (by omega))
  have hidx : ¬ (k.toNat < 1 ∨ k.toNat > 15) := by omega
  exact (if_neg hidx).trans (if_pos hfrags)

/-! ## The report parser (R104) -/

theorem exec_rptParse_of_malformed {r : Report} (hl : r.length ≠ 61) (s : State) :
    exec (.rptParse r) s = s.reply (.err .badArgument (.num r.length)) :=
  if_pos (Bool.eq_false_iff.2 (mt (reportShaped_iff r).1 hl))

theorem exec_rptParse_of_shaped {r : Report} (hl : r.length = 61) (s : State) :
    exec (.rptParse r) s = s.reply (.ok (.hdr (parseReport r))) :=
  if_neg (by simp [(reportShaped_iff r).2 hl])

end Sys2Proof.Machine

namespace Sys2Proof.Proofs

open Sys2Proof.Machine Sys2Proof.Claims

/-- Settles O34: the reports of a split packet are all its fragments in order, which the batch concatenates. -/
theorem reassembleOfSplitIsIdentity : Obligations.ReassembleOfSplitIsIdentity := fun _ k s s' hp hk hk' =>
  ⟨_, exec_fragSplit_of_fits hk hk' hp s, exec_fragReassemble_of_ok (batchResult_splitReports hp k) s'⟩

/-- Settles O20: the index issued is in 1..15, so the operand and PKT_SEQ's four bits both hold it. -/
theorem seqNextPktIssuesNextIndex : Obligations.SeqNextPktIssuesNextIndex := by
  refine ⟨fun _ => rfl, fun s => ?_⟩
  have hv := toNat_ofNat_seqNext (top := 15) (w := 8) (by decide) (by decide) s.pktSeq.toNat
  have hn := toNat_ofNat_seqNext (top := 15) (w := 4) (by decide) (by decide) s.pktSeq.toNat
  refine ⟨_, _, hv, hn.trans hv.symm, ?_, ?_, exec_seqNextPkt s⟩
  · rw [hv]
    exact one_le_seqNext _ _
  · rw [hv]
    exact seqNext_le (by decide) _

/-- Settles O21: the second index follows the first, which is at most 15. -/
theorem consecutivePacketIndicesDiffer : Obligations.ConsecutivePacketIndicesDiffer := by
  intro s t t' u _ hkeep hu heq
  have hnext := pktSeq_of_seqNextPkt hu
  rw [hkeep, heq] at hnext
  exact seqNext_ne (by decide) (Nat.le_of_lt_succ t.pktSeq.isLt) hnext.symm

/-- Settles O23: the three clauses are FRAG_SPLIT's three answers, the reports read off the list one by one. -/
theorem fragSplitFollowsRule : Obligations.FragSplitFollowsRule := by
  refine ⟨fun _ => rfl, fun p k s => ⟨fun hk => ?badIndex, fun hk hk' hp => ?tooLong, fun hk hk' hp => ?fits⟩⟩
  case badIndex => exact exec_fragSplit_of_badIndex hk p s
  case tooLong => exact fragsFor_eq_fragments p.length ▸ exec_fragSplit_of_tooLong hk hk' hp s
  case fits =>
    refine ⟨_, exec_fragSplit_of_fits hk hk' hp s, ?_⟩
    rw [length_splitReports]
    exact ⟨fragsFor_eq_fragments _, one_le_fragsFor _, (fragsFor_le_iff _).2 hp,
      fun _ hj => getElem?_splitReports p k hj⟩

/-- Settles O24: the reports are all the fragments of packet k, and their chunks make up the packet. -/
theorem splitReportsAreInOrder : Obligations.SplitReportsAreInOrder := by
  intro p k s hk hk' hp
  have hfrags := areFragmentsFrom_splitReports hp k
  refine ⟨_, exec_fragSplit_of_fits hk hk' hp s, inOrder_iff.2 ⟨splitReports_ne_nil p k, k, hfrags⟩,
    fun r hr => ⟨?reportId, ?packetIdx⟩, ?packet⟩
  case reportId =>
    obtain ⟨j, -, rfl⟩ := List.mem_map.1 hr
    rfl
  case packetIdx =>
    obtain ⟨j, hj⟩ := List.mem_iff_getElem?.1 hr
    exact congrArg BitVec.toNat (hfrags j r hj).packet
  case packet => exact funext payload_eq_payloadOf ▸ flatMap_payload_splitReports p k

/-- Settles O25: a report of 61 bytes is parsed whatever its header, and only a valid header gives a payload. -/
theorem rptParseReadsHeader : Obligations.RptParseReadsHeader := by
  refine ⟨fun _ => rfl, fun r s => ⟨fun hl => exec_rptParse_of_malformed hl s, fun hl =>
    ⟨_, exec_rptParse_of_shaped hl s, rfl, rfl, rfl, rfl, rfl, hdrOk_iff_hdrValid r, fun hv => ?valid,
      fun hv => ?invalid⟩⟩⟩
  case valid =>
    have hok := (hdrOk_iff_hdrValid r).2 hv
    have hpay : (parseReport r).payload = payload r := if_pos hok
    exact ⟨hpay.trans (payload_eq_payloadOf r), hpay ▸ payload_length hl hok⟩
  case invalid => exact if_neg (mt (hdrOk_iff_hdrValid r).1 hv)

end Sys2Proof.Proofs
end

section
/-! PROOFS. RASM_PUSH, RASM_TAKE and RASM_CLEAR in the terms of the rules: the violations, the fragment stored, and the
packet taken (R109 to R112). -/

namespace Sys2Proof.Machine

/-- The violations of R109 as the rule numbers them, each with its code of R211. -/
theorem firstViolation_eq (r : Report) (g : Rasm) :
    Claims.firstViolation r g = (g.violation r).map fun e => (e, e.code) := by
  have hhdr : hdrOk r = false ↔ ¬ Claims.hdrValid r := by rw [← Bool.not_eq_true, hdrOk_iff_hdrValid]
  have hpkt : packetIdx r ≠ g.pkt ↔ Claims.num r 2 ≠ g.pkt.toNat := BitVec.toNat_ne
  unfold Claims.firstViolation Rasm.violation
  simp only [hhdr, hpkt, apply_ite (Option.map _), Option.map_some, Option.map_none]
  rfl

theorem firstViolation_eq_none {r : Report} {g : Rasm} : Claims.firstViolation r g = none ↔ g.violation r = none := by
  rw [firstViolation_eq, Option.map_eq_none_iff]

theorem firstViolation_eq_some {r : Report} {g : Rasm} {e : ErrorKind} {code : Byte} :
    Claims.firstViolation r g = some (e, code) ↔ g.violation r = some e ∧ e.code = code := by
  simp [firstViolation_eq]

/-- What RASM_PUSH answers Ok to, and what it does then (R109). -/
theorem Rasm.push_ok_iff {r : Report} {g g' : Rasm} {v : Value} :
    g.push r = .ok (g', .ok v) ↔ r.length = 61 ∧ (g.st = .idle ∨ g.st = .active) ∧ g.violation r = none ∧
      g.storeAt + (payload r).length ≤ 840 ∧ g' = g.stored r ∧ v = g.acceptValue r := by
  constructor
  · intro h
    obtain ⟨-, hg⟩ | ⟨-, -, hg⟩ | ⟨-, -, hg⟩ | ⟨e, -, -, -, hg⟩ | ⟨hl, hst, hv, hg⟩ := g.push_cases r <;> rw [hg] at h
    · cases h
    · cases h
    · cases h
    · cases h
    · rw [Rasm.accept_eq] at h
      split at h
      · next hroom =>
        cases h
        exact ⟨hl, hst, hv, hroom, rfl, rfl⟩
      · cases h
  · rintro ⟨hl, hst, hv, hroom, rfl, rfl⟩
    rw [Rasm.push_of_no_violation hl hst hv, Rasm.accept_eq, if_pos hroom]

/-- An accepted report belongs to the packet the registers hold (R109). -/
theorem Rasm.accepted_pkt {r : Report} {g : Rasm} (hv : g.violation r = none) (b : Memory) :
    (g.accepted r b).pkt = packetIdx r := by
  obtain ⟨-, -, hrest⟩ := Rasm.violation_none hv
  by_cases hi : g.st = .idle
  · simp [Rasm.accepted, hi]
  · simp [Rasm.accepted, hi, (hrest hi).1]

/-- The last fragment of a packet answers Complete, every other one More (R109). -/
theorem Rasm.acceptValue_eq {r : Report} {g : Rasm} (hv : g.violation r = none) :
    g.acceptValue r = if (fragIdx r).toNat = (fragCount r).toNat then .complete (g.storeAt + payloadLen r)
      else .more ((fragIdx r).toNat + 1) := by
  rw [← Rasm.accepted_cnt_toNat hv g.buf]
  rfl

end Sys2Proof.Machine

namespace Sys2Proof.Proofs

open Sys2Proof.Machine Sys2Proof.Claims

/-- Settles O26: the registers after an accepted report are those of R109, and RBUF differs by the payload alone. -/
theorem rasmPushStoresAcceptedFragment : Obligations.RasmPushStoresAcceptedFragment := by
  intro r s hl hst hviol hroom
  have hv := firstViolation_eq_none.1 hviol
  obtain ⟨hhdr, -, -⟩ := Rasm.violation_none hv
  have hpay : (payload r).length = num r 1 - 3 := payload_length hl hhdr
  have hroom' : s.rasm.storeAt + (payload r).length ≤ 840 := hpay ▸ hroom
  have hpush := Rasm.push_ok_iff.2 ⟨hl, hst, hv, hroom', rfl, rfl⟩
  refine ⟨_, (exec_rasmPush r s).trans (congrArg s.commit hpush), ?st, ?pkt, ?cnt, ?next, ?len, rfl, ?result, rfl, rfl,
    rfl, fun j hj => ?stored, fun a ha => ?frame, rfl, fun hwf => ?wf⟩
  case st => exact Rasm.accepted_st hv _
  case pkt => exact congrArg BitVec.toNat (Rasm.accepted_pkt hv _)
  case cnt => exact Rasm.accepted_cnt_toNat hv _
  case next => exact Rasm.accepted_next_toNat hv _
  case len => exact hpay ▸ Rasm.accepted_len_toNat hl hv _ hroom'
  case result => exact congrArg (fun v => s.results ++ [.ok v]) (Rasm.acceptValue_eq hv)
  case stored =>
    rw [← payload_eq_payloadOf]
    exact ⟨Memory.read_writeAll _ _ (hpay ▸ hj), Memory.written_writeAll _ (hpay ▸ hj)⟩
  case frame =>
    rw [← hpay] at ha
    refine ⟨Memory.read_writeAll_outside _ _ ha, ?_⟩
    rcases ha with ha | ha
    · exact Memory.written_writeAll_of_lt _ ha
    · exact Memory.written_writeAll_of_ge _ ha
  case wf => exact Memory.wf_writeAll _ _ hwf

/-- Settles O27: the violation found is the first of R109's order, and the latch writes its code. -/
theorem rasmPushLatchesFirstViolation : Obligations.RasmPushLatchesFirstViolation := by
  intro r s e code hl hst hviol
  obtain ⟨hv, rfl⟩ := firstViolation_eq_some.1 hviol
  rw [exec_rasmPush, Rasm.push_of_violation hl hst hv, State.commit_ok]
  rfl

/-- Outside COMPLETE RASM_TAKE answers the state's code and changes no register (R111). -/
theorem replies_rasmTake_of_not_complete {s : State} {st : RasmSt} (hst : s.rasm.st = st) (h : st ≠ .complete) :
    Replies .rasmTake s (.err .notReady (.num st.code)) := by
  subst hst
  rw [Replies, exec_rasmTake, Rasm.take_of_not_complete h, State.commit_ok]

/-- Settles O29: in COMPLETE the bytes below RASM_LEN are read, elsewhere nothing is. -/
theorem rasmTakeRemovesCompletedPacket : Obligations.RasmTakeRemovesCompletedPacket := by
  refine ⟨fun _ => rfl, fun s => ⟨fun hst hlen => ?complete, fun hst => ?idle, fun hst => ?active, fun hst => ?error⟩⟩
  case complete =>
    refine ⟨s.rasm.buf.readAll s.rasm.era 0 s.rasm.len.toNat, Memory.readAll_length _ _ _ _, fun a ha => ?_, ?_⟩
    · rw [Memory.readAll_length] at ha
      rw [Memory.readAll_getElem? _ ha, Nat.zero_add]
      rfl
    · rw [exec_rasmTake, Rasm.take_of_complete hst hlen, State.commit_ok]
      rfl
  case idle => exact replies_rasmTake_of_not_complete hst (by decide)
  case active => exact replies_rasmTake_of_not_complete hst (by decide)
  case error => exact replies_rasmTake_of_not_complete hst (by decide)

/-- Settles O30: clearing the registers reads none of them, so it succeeds in every state. -/
theorem rasmClearAbandonsPacket : Obligations.RasmClearAbandonsPacket :=
  ⟨fun _ => rfl, exec_rasmClear⟩

end Sys2Proof.Proofs
end

section
/-! PROOFS. What an accepted report makes of the reassembly registers, and lists of reports that are accepted (R109,
R114). -/

namespace Sys2Proof.Machine

/-! ## RASM_PUSH under R33's invariant -/

/-- Every report of a list has the shape of one (R63). -/
abbrev AllShaped (rs : List Report) : Prop := ∀ r ∈ rs, r.length = 61

/-- Under R33's invariant RASM_PUSH does not run beyond RBUF (R109's last corner case). -/
theorem Rasm.push_answers {g : Rasm} (h : g.regsInv) (r : Report) : ∃ g' x, g.push r = .ok (g', x) := by
  obtain ⟨-, hg⟩ | ⟨-, -, hg⟩ | ⟨-, -, hg⟩ | ⟨e, -, -, -, hg⟩ | ⟨hl, hst, hv, -⟩ := g.push_cases r
  · exact ⟨_, _, hg⟩
  · exact ⟨_, _, hg⟩
  · exact ⟨_, _, hg⟩
  · exact ⟨_, _, hg⟩
  · obtain ⟨hh, -, -⟩ := Rasm.violation_none hv
    obtain ⟨hstore, -⟩ := Rasm.storeAt_le h hst hv
    have hpay : (payload r).length ≤ 56 := payload_length hl hh ▸ payloadLen_le hh
    rw [hdrOk_iff] at hh
    exact ⟨_, _, Rasm.push_ok_iff.2 ⟨hl, hst, hv, by omega, rfl, rfl⟩⟩

/-- A whole packet lies within RBUF (R25, R33). -/
theorem Rasm.len_le_of_complete {g : Rasm} (h : g.regsInv) (hst : g.st = .complete) : g.len.toNat ≤ 840 := by
  obtain ⟨-, -, hcomplete, -⟩ := h
  obtain ⟨-, hcnt, -, hlen, -⟩ := hcomplete hst
  omega

/-- Only from IDLE or ACTIVE does RASM_PUSH lead to IDLE or ACTIVE: ERROR and COMPLETE stay (R217). -/
theorem Rasm.st_of_push {r : Report} {g g' : Rasm} {x : Result} (h : g.push r = .ok (g', x))
    (hst : g'.st = .idle ∨ g'.st = .active) : g.st = .idle ∨ g.st = .active := by
  obtain rfl | ⟨e, -, rfl⟩ | ⟨-, hg, -, -, -⟩ := Rasm.push_next h
  · exact hst
  · simp at hst
  · exact hg

/-- A report of 61 bytes that leads to IDLE or ACTIVE has been accepted: an error latches or is found in ERROR or
COMPLETE (R109, R110). -/
theorem Rasm.push_ok_of_st {r : Report} {g g' : Rasm} {x : Result} (hl : r.length = 61) (h : g.push r = .ok (g', x))
    (hst : g'.st = .idle ∨ g'.st = .active) : ∃ v, x = .ok v := by
  have hg := Rasm.st_of_push h hst
  cases hv : g.violation r with
  | some e =>
    rw [Rasm.push_of_violation hl hg hv] at h
    cases h
    simp at hst
  | none =>
    rw [Rasm.push_of_no_violation hl hg hv, Rasm.accept_eq] at h
    split at h
    · cases h
      exact ⟨_, rfl⟩
    · cases h

/-! ## The registers a report is stored into: what they hold, what they await, what was answered (R109) -/

/-- The bytes held of the packet in progress. -/
def Rasm.contents (g : Rasm) : List Byte := g.buf.readAll g.era 0 g.storeAt

/-- The fragment index awaited: 1 in IDLE, RASM_NEXT in ACTIVE. -/
def Rasm.awaited (g : Rasm) : Nat := if g.st = .idle then 1 else g.next.toNat

/-- The value that RASM_PUSH answered when it led to these registers. -/
def Rasm.answered (g : Rasm) : Value := if g.st = .complete then .complete g.len.toNat else .more g.next.toNat

theorem Rasm.contents_of_idle {g : Rasm} (hst : g.st = .idle) : g.contents = [] := by
  simp [Rasm.contents, Rasm.storeAt, hst, Memory.readAll]

theorem Rasm.awaited_of_idle {g : Rasm} (hst : g.st = .idle) : g.awaited = 1 := if_pos hst

theorem Rasm.length_contents (g : Rasm) : g.contents.length = g.storeAt := Memory.readAll_length _ _ _ _

/-- A whole packet held is the contents. -/
theorem Rasm.completed_contents {g : Rasm} (hst : g.st = .complete) (hlen : g.len.toNat ≤ 840) :
    g.Completed g.contents := by
  have hstore : g.storeAt = g.len.toNat := if_neg (by simp [hst])
  have hlength : g.contents.length = g.len.toNat := g.length_contents.trans hstore
  exact ⟨hst, hlength.symm, hlength ▸ hlen, by rw [g.length_contents]; rfl⟩

section Push

variable {r : Report} {g g' : Rasm} {v : Value} (h : g.push r = .ok (g', .ok v))

include h

theorem Rasm.st_ne_idle_of_push_ok : g'.st ≠ .idle := by
  obtain ⟨-, -, hv, -, rfl, -⟩ := Rasm.push_ok_iff.1 h
  rw [Rasm.accepted_st hv]
  split <;> simp

/-- An accepted report is the fragment awaited, and the next one is awaited after it. -/
theorem Rasm.next_of_push_ok : g'.next.toNat = g.awaited + 1 := by
  obtain ⟨-, -, hv, -, rfl, -⟩ := Rasm.push_ok_iff.1 h
  obtain ⟨-, hidle, hrest⟩ := Rasm.violation_none hv
  rw [Rasm.accepted_next_toNat hv, Rasm.awaited]
  split
  · next hi => rw [hidle hi]
  · next hi =>
    obtain ⟨-, -, hidx⟩ := hrest hi
    rw [hidx]

theorem Rasm.awaited_of_push_ok : g'.awaited = g.awaited + 1 :=
  (if_neg (Rasm.st_ne_idle_of_push_ok h)).trans (Rasm.next_of_push_ok h)

theorem Rasm.value_of_push_ok : v = g'.answered := by
  obtain ⟨hl, -, hv, hroom, rfl, rfl⟩ := Rasm.push_ok_iff.1 h
  obtain ⟨hh, -, -⟩ := Rasm.violation_none hv
  rw [Rasm.acceptValue_eq hv, Rasm.answered, Rasm.accepted_st hv, Rasm.accepted_len_toNat hl hv _ hroom,
    Rasm.accepted_next_toNat hv, payload_length hl hh]
  by_cases hlast : (fragIdx r).toNat = (fragCount r).toNat <;> simp [hlast]

/-- An accepted report appends its payload to the bytes held (R49). -/
theorem Rasm.contents_of_push_ok : g'.contents = g.contents ++ payload r := by
  have hidle := Rasm.st_ne_idle_of_push_ok h
  obtain ⟨hl, -, hv, hroom, rfl, -⟩ := Rasm.push_ok_iff.1 h
  have hstore : (g.stored r).storeAt = g.storeAt + (payload r).length :=
    (if_neg hidle).trans (Rasm.accepted_len_toNat hl hv _ hroom)
  have hbytes : g.buf.readAll g.era 0 g.contents.length = g.contents := by
    rw [g.length_contents]
    rfl
  have happend := Memory.readAll_writeAll_append (payload r) hbytes
  rw [g.length_contents] at happend
  rw [Rasm.contents, hstore]
  exact happend

end Push

/-! ## Lists of reports that are accepted -/

/-- A front of accepted reports is accepted, and so is the rest behind it. -/
theorem Rasm.Accepts.of_append {xs ys : List Report} {g g' : Rasm} (h : Rasm.Accepts (xs ++ ys) g g') :
    ∃ u, Rasm.Accepts xs g u ∧ Rasm.Accepts ys u g' := by
  induction xs generalizing g with
  | nil => exact ⟨g, .nil g, h⟩
  | cons x xs ih =>
    obtain _ | ⟨head, tail⟩ := h
    obtain ⟨u, hxs, hys⟩ := ih tail
    exact ⟨u, .cons head hxs, hys⟩

theorem Rasm.Accepts.allShaped {rs : List Report} {g g' : Rasm} (h : Rasm.Accepts rs g g') : AllShaped rs := by
  induction h with
  | nil g => exact fun _ hr => absurd hr List.not_mem_nil
  | cons head _ ih => exact List.forall_mem_cons.2 ⟨(Rasm.push_ok_iff.1 head).1, ih⟩

/-- Accepted reports append their payloads one after the other (R49). -/
theorem Rasm.Accepts.contents_eq {rs : List Report} {g g' : Rasm} (h : Rasm.Accepts rs g g') :
    g'.contents = g.contents ++ rs.flatMap payload := by
  induction h with
  | nil g => simp
  | cons head _ ih => rw [ih, Rasm.contents_of_push_ok head, List.flatMap_cons, List.append_assoc]

/-- Accepted reports are the next fragments, one by one. -/
theorem Rasm.Accepts.awaited_eq {rs : List Report} {g g' : Rasm} (h : Rasm.Accepts rs g g') :
    g'.awaited = g.awaited + rs.length := by
  induction h with
  | nil g => rfl
  | cons head _ ih =>
    rw [ih, Rasm.awaited_of_push_ok head, List.length_cons]
    omega

/-- Accepted reports leave no register in IDLE. -/
theorem Rasm.Accepts.st_ne_idle {rs : List Report} {g g' : Rasm} (h : Rasm.Accepts rs g g') (hne : rs ≠ []) :
    g'.st ≠ .idle := by
  induction h with
  | nil g => exact absurd rfl hne
  | @cons r rs g g₁ g₂ v head tail ih =>
    cases rs with
    | nil =>
      cases tail
      exact Rasm.st_ne_idle_of_push_ok head
    | cons => exact ih (by simp)

/-- No whole packet is held before reports that are accepted. -/
theorem Rasm.Accepts.st_ne_complete {rs : List Report} {g g' : Rasm} (h : Rasm.Accepts rs g g') (hne : rs ≠ []) :
    g.st ≠ .complete := by
  cases h with
  | nil => exact absurd rfl hne
  | cons head _ => exact Rasm.st_ne_complete_of_push_ok head

/-! ## Registers in the same place of the same packet -/

/-- RASM_PUSH meets the same violations and stores at the same place on both sides: the two differ in RASM_ERR and RBUF,
and in IDLE in the progress registers, at most. -/
structure Rasm.SamePlace (g g' : Rasm) : Prop where
  st : g'.st = g.st
  progress : g.st ≠ .idle → g'.pkt = g.pkt ∧ g'.cnt = g.cnt ∧ g'.next = g.next ∧ g'.len = g.len

theorem Rasm.SamePlace.of_idle {g g' : Rasm} (h : g.st = .idle) (h' : g'.st = .idle) : g.SamePlace g' :=
  ⟨h'.trans h.symm, fun hn => absurd h hn⟩

theorem Rasm.SamePlace.violation_eq {g g' : Rasm} (h : g.SamePlace g') (r : Report) :
    g'.violation r = g.violation r := by
  by_cases hi : g.st = .idle
  · simp [Rasm.violation, h.st, hi]
  · obtain ⟨hpkt, hcnt, hnext, -⟩ := h.progress hi
    simp [Rasm.violation, h.st, hi, hpkt, hcnt, hnext]

theorem Rasm.SamePlace.storeAt_eq {g g' : Rasm} (h : g.SamePlace g') : g'.storeAt = g.storeAt := by
  by_cases hi : g.st = .idle
  · simp [Rasm.storeAt, h.st, hi]
  · obtain ⟨-, -, -, hlen⟩ := h.progress hi
    simp [Rasm.storeAt, h.st, hi, hlen]

theorem Rasm.SamePlace.accepted {g g' : Rasm} (h : g.SamePlace g') (r : Report) (b b' : Memory) :
    (g.accepted r b).SamePlace (g'.accepted r b') := by
  have hboth : (g'.accepted r b').pkt = (g.accepted r b).pkt ∧ (g'.accepted r b').cnt = (g.accepted r b).cnt := by
    by_cases hi : g.st = .idle
    · simp [Rasm.accepted, h.st, hi]
    · obtain ⟨hpkt, hcnt, -, -⟩ := h.progress hi
      simp [Rasm.accepted, h.st, hi, hpkt, hcnt]
  obtain ⟨hpkt, hcnt⟩ := hboth
  have hlast (u : Rasm) (m : Memory) : (u.accepted r m).st =
      if (fragIdx r).toNat = (u.accepted r m).cnt.toNat then .complete else .active := rfl
  have hlen : (g'.accepted r b').len = (g.accepted r b).len := by simp [Rasm.accepted, h.storeAt_eq]
  exact ⟨by rw [hlast, hlast, hcnt], fun _ => ⟨hpkt, hcnt, rfl, hlen⟩⟩

/-- A report accepted on one side is accepted on the other. -/
theorem Rasm.SamePlace.push_ok {r : Report} {g g' u : Rasm} {v : Value} (h : g.SamePlace g')
    (hu : g.push r = .ok (u, .ok v)) : ∃ u' v', g'.push r = .ok (u', .ok v') ∧ u.SamePlace u' := by
  obtain ⟨hl, hst, hv, hroom, rfl, -⟩ := Rasm.push_ok_iff.1 hu
  exact ⟨_, _, Rasm.push_ok_iff.2 ⟨hl, h.st ▸ hst, (h.violation_eq r).trans hv, h.storeAt_eq ▸ hroom, rfl, rfl⟩,
    h.accepted r _ _⟩

/-- Reports accepted on one side are accepted on the other. -/
theorem Rasm.SamePlace.accepts {rs : List Report} {g g' u : Rasm} (h : g.SamePlace g') (hu : Rasm.Accepts rs g u) :
    ∃ u', Rasm.Accepts rs g' u' ∧ u.SamePlace u' := by
  induction hu generalizing g' with
  | nil g => exact ⟨g', .nil g', h⟩
  | cons head _ ih =>
    obtain ⟨u₁, v', hhead, h₁⟩ := h.push_ok head
    obtain ⟨u', htail, h'⟩ := ih h₁
    exact ⟨u', .cons hhead htail, h'⟩

end Sys2Proof.Machine
end

section
/-! PROOFS. Batch and streaming reassembly: what FRAG_REASSEMBLE answers, what pushing the same reports answers, and
where the two agree (R113, R114). -/

namespace Sys2Proof.Machine

/-! ## FRAG_REASSEMBLE (R113) -/

/-- The loop goes on behind an accepted report. -/
theorem pushAll_of_push_ok {r : Report} {g g' : Rasm} {v : Value} (h : g.push r = .ok (g', .ok v)) (rs : List Report) :
    pushAll (r :: rs) g = pushAll rs g' := by
  rw [pushAll, if_neg (Rasm.st_ne_complete_of_push_ok h), h]

/-- The loop ends at an error of RASM_PUSH. -/
theorem pushAll_of_push_err {r : Report} {g g' : Rasm} {e : ErrorKind} {info : Info} (hst : g.st ≠ .complete)
    (h : g.push r = .ok (g', .err e info)) (rs : List Report) :
    pushAll (r :: rs) g = .ok (g', some (.err e info)) := by
  rw [pushAll, if_neg hst, h]

/-- The loop ends at a report behind a whole packet. -/
theorem pushAll_of_complete {g : Rasm} (hst : g.st = .complete) (r : Report) (rs : List Report) :
    pushAll (r :: rs) g = .ok (g, some (.err .countMismatch (.num (fragIdx r).toNat))) := by
  rw [pushAll, if_pos hst]

/-- The loop goes on behind reports that are accepted. -/
theorem pushAll_append_of_accepts {xs : List Report} {g g' : Rasm} (h : Rasm.Accepts xs g g') (ys : List Report) :
    pushAll (xs ++ ys) g = pushAll ys g' := by
  induction h with
  | nil g => rfl
  | cons head _ ih =>
    rw [List.cons_append, pushAll_of_push_ok head]
    exact ih

/-- The loop keeps R33's invariant, so it does not fault; it accepts every report or ends at an error. -/
theorem pushAll_cases {g : Rasm} (hg : g.Inv) (rs : List Report) :
    (∃ g', pushAll rs g = .ok (g', none) ∧ Rasm.Accepts rs g g' ∧ g'.Inv) ∨
    (∃ g' e info, pushAll rs g = .ok (g', some (.err e info))) := by
  induction rs generalizing g with
  | nil => exact .inl ⟨g, rfl, .nil g, hg⟩
  | cons r rs ih =>
    by_cases hst : g.st = .complete
    · exact .inr ⟨_, _, _, pushAll_of_complete hst r rs⟩
    · obtain ⟨g₁, x, hpush⟩ := Rasm.push_answers hg.1 r
      cases x with
      | err e info => exact .inr ⟨g₁, e, info, pushAll_of_push_err hst hpush rs⟩
      | ok v =>
        rw [pushAll_of_push_ok hpush]
        obtain ⟨g', hrest, hacc, hg'⟩ | hrest := ih (Rasm.inv_push hg hpush)
        · exact .inl ⟨g', hrest, .cons hpush hacc, hg'⟩
        · exact .inr hrest

theorem findIdx?_eq_none_iff_allShaped {rs : List Report} :
    rs.findIdx? (fun r => !reportShaped r) = none ↔ AllShaped rs := by
  simp [List.findIdx?_eq_none_iff, reportShaped_iff]

/-- The first malformed report is found at its position. -/
theorem batchResult_of_malformed {xs : List Report} (hxs : AllShaped xs) {r : Report} (hr : r.length ≠ 61)
    (ys : List Report) : batchResult (xs ++ r :: ys) = .ok (.err .badArgument (.num (xs.length + 1))) := by
  have hbad : (!reportShaped r) = true := by simpa using mt (reportShaped_iff r).1 hr
  have hfind : (xs ++ r :: ys).findIdx? (fun r => !reportShaped r) = some xs.length := by
    rw [List.findIdx?_append, findIdx?_eq_none_iff_allShaped.2 hxs, List.findIdx?_cons, hbad]
    simp
  rw [batchResult, hfind]

theorem batchResult_nil : batchResult [] = .ok (.err .countMismatch (.num 1)) := rfl

section Batch

variable {rs : List Report} (hne : rs ≠ []) {g : Rasm}

include hne

/-- The batch ends with the error that ended the loop. -/
theorem batchResult_of_pushAll_err (hrs : AllShaped rs) {x : Result} (h : pushAll rs Rasm.reset = .ok (g, some x)) :
    batchResult rs = .ok x := by
  simp [batchResult, findIdx?_eq_none_iff_allShaped.2 hrs, hne, h]

/-- The batch of accepted reports ends with what the registers hold. -/
theorem batchResult_of_accepts (h : Rasm.Accepts rs Rasm.reset g) : batchResult rs = batchEnd g := by
  simp [batchResult, findIdx?_eq_none_iff_allShaped.2 h.allShaped, hne, pushAll_of_accepts h]

end Batch

theorem batchEnd_of_not_complete {g : Rasm} (hst : g.st ≠ .complete) :
    batchEnd g = .ok (.err .countMismatch (.num g.next.toNat)) := if_neg hst

/-- The answers of a batch: an error, or the bytes of the packet that its reports complete. No batch faults (R113). -/
theorem batchResult_cases (rs : List Report) :
    (∃ e info, batchResult rs = .ok (.err e info)) ∨
    (∃ g, rs ≠ [] ∧ Rasm.Accepts rs Rasm.reset g ∧ g.Completed g.contents ∧
      batchResult rs = .ok (.ok (.seq g.contents))) := by
  cases hfind : rs.findIdx? (fun r => !reportShaped r) with
  | some j => exact .inl ⟨.badArgument, .num (j + 1), by rw [batchResult, hfind]⟩
  | none =>
    obtain rfl | hne := eq_or_ne rs []
    · exact .inl ⟨_, _, batchResult_nil⟩
    obtain ⟨g, -, hacc, hinv⟩ | ⟨g, e, info, h⟩ := pushAll_cases Rasm.inv_reset rs
    · have hend := batchResult_of_accepts hne hacc
      by_cases hst : g.st = .complete
      · have hdone := Rasm.completed_contents hst (Rasm.len_le_of_complete hinv.1 hst)
        exact .inr ⟨g, hne, hacc, hdone, hend.trans hdone.batchEnd_eq⟩
      · exact .inl ⟨_, _, hend.trans (batchEnd_of_not_complete hst)⟩
    · exact .inl ⟨e, info, batchResult_of_pushAll_err hne (findIdx?_eq_none_iff_allShaped.1 hfind) h⟩

/-- The answer of FRAG_REASSEMBLE is the batch's. -/
theorem batchResult_of_replies {rs : List Report} {s : State} {r : Result}
    (h : Claims.Replies (.fragReassemble rs) s r) : batchResult rs = .ok r := by
  obtain ⟨r', hr', hexec⟩ | ⟨f, -, hexec⟩ := execFragReassemble_cases rs
  · have hanswer : s.results ++ [r'] = s.results ++ [r] := by
      simpa [State.answer] using (hexec s).symm.trans h
    obtain rfl : r' = r := by simpa using hanswer
    exact hr'
  · cases (hexec s).symm.trans h

/-! ## Streaming (R114) -/

theorem execAll_cons {i : Instr} {s u : State} (h : exec i s = .next u) (is : List Instr) :
    Claims.execAll (i :: is) s = Claims.execAll is u := by
  simp [Claims.execAll, h, nextOf]

theorem execAll_cons_some {i : Instr} {is : List Instr} {s t : State} (h : Claims.execAll (i :: is) s = some t) :
    ∃ u, exec i s = .next u ∧ Claims.execAll is u = some t := by
  cases hi : exec i s with
  | next u => exact ⟨u, rfl, execAll_cons hi is ▸ h⟩
  | fault f => simp [Claims.execAll, hi, nextOf] at h
  | refused r => simp [Claims.execAll, hi, nextOf] at h

/-- The results of a stream that is accepted: More for each report but the last, then what the registers answered. -/
theorem execAll_of_accepts {rs : List Report} (hne : rs ≠ []) {s : State} {g : Rasm} (h : Rasm.Accepts rs s.rasm g) :
    ∃ t, Claims.execAll (rs.map .rasmPush) s = some t ∧ t.rasm = g ∧
      t.results = s.results ++ (List.range (rs.length - 1)).map (fun j => .ok (.more (s.rasm.awaited + j + 1)))
        ++ [.ok g.answered] := by
  generalize hs : s.rasm = g₀ at h
  induction h generalizing s with
  | nil g => exact absurd rfl hne
  | @cons r rs g₀ g₁ g₂ v head tail ih =>
    have hexec : exec (.rasmPush r) s = .next { s with rasm := g₁, results := s.results ++ [.ok v] } := by
      rw [exec_rasmPush, hs, head, State.commit_ok]
    rw [List.map_cons, execAll_cons hexec]
    obtain rfl := Rasm.value_of_push_ok head
    cases rs with
    | nil =>
      cases tail
      exact ⟨_, rfl, rfl, by simp⟩
    | cons r' rs =>
      obtain ⟨t, ht, hrasm, hres⟩ :=
        ih (by simp) (s := { s with rasm := g₁, results := s.results ++ [.ok g₁.answered] }) rfl
      have hmore : g₁.answered = .more (g₀.awaited + 1) :=
        (if_neg (tail.st_ne_complete (by simp))).trans (congrArg Value.more (Rasm.next_of_push_ok head))
      refine ⟨t, ht, hrasm, ?_⟩
      rw [hres, hmore, Rasm.awaited_of_push_ok head]
      simp [List.range_succ_eq_map, Function.comp_def, Nat.add_assoc, Nat.add_comm 1]

/-- Only from IDLE or ACTIVE do pushes lead to IDLE or ACTIVE. -/
theorem st_of_execAll_push {rs : List Report} {s t : State} (h : Claims.execAll (rs.map .rasmPush) s = some t)
    (hst : t.rasm.st = .idle ∨ t.rasm.st = .active) : s.rasm.st = .idle ∨ s.rasm.st = .active := by
  induction rs generalizing s with
  | nil =>
    cases h
    exact hst
  | cons r rs ih =>
    obtain ⟨u, hu, hrest⟩ := execAll_cons_some h
    obtain ⟨g, x, hpush, rfl⟩ := State.commit_next.1 (exec_rasmPush r s ▸ hu)
    exact Rasm.st_of_push hpush (ih hrest)

/-- A stream of well-shaped reports that ends in IDLE or ACTIVE has been accepted. -/
theorem accepts_of_execAll {rs : List Report} (hrs : AllShaped rs) {s t : State}
    (h : Claims.execAll (rs.map .rasmPush) s = some t) (hst : t.rasm.st = .idle ∨ t.rasm.st = .active) :
    Rasm.Accepts rs s.rasm t.rasm := by
  induction rs generalizing s with
  | nil =>
    cases h
    exact .nil _
  | cons r rs ih =>
    obtain ⟨hr, hrest⟩ := List.forall_mem_cons.1 hrs
    obtain ⟨u, hu, hall⟩ := execAll_cons_some h
    obtain ⟨g, x, hpush, rfl⟩ := State.commit_next.1 (exec_rasmPush r s ▸ hu)
    obtain ⟨v, rfl⟩ := Rasm.push_ok_of_st hr hpush (st_of_execAll_push hall hst)
    exact .cons hpush (ih hrest hall)

end Sys2Proof.Machine

namespace Sys2Proof.Proofs

open Sys2Proof.Machine Sys2Proof.Claims

/-- Settles O31: the batch's registers begin at their reset values and keep the invariant, so RBUF is never overrun. -/
theorem fragReassembleAlwaysAnswers : Obligations.FragReassembleAlwaysAnswers := by
  intro rs s
  obtain ⟨e, info, h⟩ | ⟨g, -, -, -, h⟩ := batchResult_cases rs
  · exact ⟨_, exec_fragReassemble_of_ok h s⟩
  · exact ⟨_, exec_fragReassemble_of_ok h s⟩

/-- Settles O32: a list in order is all the fragments of one packet, which the batch concatenates. -/
theorem fragReassembleConcatenatesPayloads : Obligations.FragReassembleConcatenatesPayloads := by
  intro rs s h
  obtain ⟨hne, k, hfrags⟩ := inOrder_iff.1 h
  exact funext payload_eq_payloadOf ▸ exec_fragReassemble_of_ok (batchResult_of_fragments hne hfrags) s

/-- Settles O33: the shape is checked first; then the reports of a whole packet leave COMPLETE, at which a surplus
report is found, and a proper front of them leaves ACTIVE, awaiting the next. -/
theorem fragReassembleCountsReports : Obligations.FragReassembleCountsReports := by
  refine ⟨fun xs r ys s hxs hr => ?malformed, fun s => ?empty, fun rs r ys s hrs hys => ?surplus,
    fun rs ys s hrs hne hys => ?short⟩
  case malformed => exact exec_fragReassemble_of_ok (batchResult_of_malformed hxs hr ys) s
  case empty => exact exec_fragReassemble_of_ok batchResult_nil s
  case surplus =>
    obtain ⟨hne, k, hfrags⟩ := inOrder_iff.1 hrs
    obtain ⟨g, hacc, hdone⟩ := Rasm.accepts_of_idle Rasm.reset_st hne hfrags
    have hloop := (pushAll_append_of_accepts hacc (r :: ys)).trans (pushAll_of_complete hdone.st r ys)
    have hshaped : AllShaped (rs ++ r :: ys) := List.forall_mem_append.2 ⟨hacc.allShaped, hys⟩
    exact exec_fragReassemble_of_ok (batchResult_of_pushAll_err (by simp) hshaped hloop) s
  case short =>
    obtain ⟨hall, k, hfrags⟩ := inOrder_iff.1 hrs
    obtain ⟨g, hacc, -⟩ := Rasm.accepts_of_idle Rasm.reset_st hall hfrags
    obtain ⟨u, hfront, hrest⟩ := hacc.of_append
    have hnext : u.next.toNat = rs.length + 1 := by
      have hawaited := hfront.awaited_eq
      rwa [Rasm.awaited, if_neg (hfront.st_ne_idle hne), Rasm.awaited_of_idle Rasm.reset_st, Nat.add_comm] at hawaited
    have hend := (batchResult_of_accepts hne hfront).trans (batchEnd_of_not_complete (hrest.st_ne_complete hys))
    exact hnext ▸ exec_fragReassemble_of_ok hend s

/-- Settles O35: what the batch's registers accept the block's accept too, from IDLE to the same place of the packet,
and both then hold the payloads. -/
theorem streamingAgreesWithBatch : Obligations.StreamingAgreesWithBatch := by
  intro rs b s s' hst hbatch
  have hb := batchResult_of_replies hbatch
  obtain ⟨e, info, h⟩ | ⟨g, hne, hacc, hdone, h⟩ := batchResult_cases rs <;> rw [h] at hb <;> cases hb
  obtain ⟨u, hstream, hsame⟩ := (Rasm.SamePlace.of_idle Rasm.reset_st hst).accepts hacc
  have hust : u.st = .complete := hsame.st.trans hdone.st
  obtain ⟨-, -, -, hlen⟩ := hsame.progress (by simp [hdone.st])
  have hcontents : u.contents = g.contents := by
    rw [hstream.contents_eq, hacc.contents_eq, Rasm.contents_of_idle hst, Rasm.contents_of_idle Rasm.reset_st]
  have hudone : u.Completed g.contents :=
    hcontents ▸ Rasm.completed_contents hust (hlen ▸ hdone.len ▸ hdone.length_le)
  have hanswered : u.answered = .complete g.contents.length := (if_pos hust).trans (congrArg Value.complete hudone.len)
  obtain ⟨t, ht, rfl, hres⟩ := execAll_of_accepts hne hstream
  rw [hanswered, Rasm.awaited_of_idle hst] at hres
  refine ⟨t, _, ht, ?results, (exec_rasmTake t).trans (congrArg t.commit hudone.take_eq), rfl, rfl⟩
  case results =>
    have hindex : ∀ j, 1 + j + 1 = j + 2 := fun j => by omega
    simpa only [hindex] using hres

/-- Settles O36: the reports before r were accepted, since ERROR and COMPLETE never lead back to ACTIVE; the batch
accepts them too, to the same place of the packet, where r meets the same violation. -/
theorem streamingFailsAsBatchFails : Obligations.StreamingFailsAsBatchFails := by
  intro xs r ys s s' t e code hshaped hst hall htst hviol
  obtain ⟨hxs, hrys⟩ := List.forall_mem_append.1 hshaped
  have hr := (List.forall_mem_cons.1 hrys).1
  obtain ⟨hv, rfl⟩ := firstViolation_eq_some.1 hviol
  obtain ⟨g, hacc, hsame⟩ := (Rasm.SamePlace.of_idle hst Rasm.reset_st).accepts (accepts_of_execAll hxs hall htst)
  refine ⟨?batch, _, (exec_rasmPush r t).trans (congrArg t.commit (Rasm.push_of_violation hr htst hv)), rfl, rfl, rfl⟩
  case batch =>
    have hpush := Rasm.push_of_violation hr (hsame.st ▸ htst) ((hsame.violation_eq r).trans hv)
    have hnc : g.st ≠ .complete := by rw [hsame.st]; rcases htst with h | h <;> simp [h]
    have hloop := (pushAll_append_of_accepts hacc (r :: ys)).trans (pushAll_of_push_err hnc hpush ys)
    exact exec_fragReassemble_of_ok (batchResult_of_pushAll_err (by simp) hshaped hloop) s'

end Sys2Proof.Proofs
end

section
/-! PROOFS. The framer in the terms of the rules: what PKT_UNFRAME checks and in which order, that it opens what
PKT_FRAME frames and finds a corrupted marker, and how long a framed packet may be (R140 to R150). -/

namespace Sys2Proof.Machine

/-! ## Slices and single bytes (R10) -/

/-- A slice of two bytes, byte by byte. -/
theorem slice_ne_pair_iff {b : List Byte} {i : Nat} (h : i + 2 ≤ b.length) (x y : Byte) :
    slice b i (i + 2) ≠ [x, y] ↔ b.getD i 0#8 ≠ x ∨ b.getD (i + 1) 0#8 ≠ y := by
  have hpair : slice b i (i + 2) = [b.getD i 0#8, b.getD (i + 1) 0#8] := by
    rw [slice, Nat.add_sub_cancel_left, List.drop_eq_getElem_cons (by omega), List.drop_eq_getElem_cons (by omega),
      List.getD_eq_getElem _ _ (by omega), List.getD_eq_getElem _ _ (by omega)]
    rfl
  rw [hpair, ← not_and_or]
  simp

/-- A byte of a slice replaced by another value changes the slice. -/
theorem slice_set_ne {b : List Byte} {i j n : Nat} {v : Byte} (hi : i ≤ j) (hj : j < n) (hb : j < b.length)
    (hv : v ≠ b.getD j 0#8) : slice (b.set j v) i n ≠ slice b i n := by
  intro heq
  have hbyte (l : List Byte) : (slice l i n)[j - i]? = l[j]? := by
    rw [slice, List.getElem?_take_of_lt (by omega), List.getElem?_drop, Nat.add_sub_cancel' hi]
  have hsame := (hbyte _).symm.trans ((congrArg (·[j - i]?) heq).trans (hbyte b))
  rw [List.getElem?_set_self hb, List.getElem?_eq_getElem hb] at hsame
  exact hv ((Option.some.inj hsame).trans (List.getD_eq_getElem _ _ hb).symm)

/-! ## PKT_UNFRAME (R143, R144) -/

theorem exec_pktUnframe_of_eq {b : List Byte} {r : Result} (h : unframe b = r) (s : State) :
    exec (.pktUnframe b) s = s.reply r :=
  congrArg (fun r => State.reply r s) h

/-- The length is checked first (R144). -/
theorem unframe_of_short {b : List Byte} (h : b.length < 6) : unframe b = .err .short (.num b.length) := if_pos h

/-- The start marker is checked next (R144). -/
theorem unframe_of_badStart {b : List Byte} (hlen : 6 ≤ b.length) (h : slice b 0 2 ≠ startMarker) :
    unframe b = .err .badStart (.two (b.getD 0 0#8) (b.getD 1 0#8)) :=
  (if_neg (Nat.not_lt.2 hlen)).trans (if_pos h)

/-- The end marker is checked last (R144). -/
theorem unframe_of_badEnd {b : List Byte} (hlen : 6 ≤ b.length) (hstart : slice b 0 2 = startMarker)
    (h : slice b (b.length - 2) b.length ≠ endMarker) :
    unframe b = .err .badEnd (.two (b.getD (b.length - 2) 0#8) (b.getD (b.length - 1) 0#8)) :=
  (if_neg (Nat.not_lt.2 hlen)).trans ((if_neg (not_not.2 hstart)).trans (if_pos h))

/-- Between two right markers stand the id, the type and the data (R143). -/
theorem unframe_of_markers {b : List Byte} (hlen : 6 ≤ b.length) (hstart : slice b 0 2 = startMarker)
    (hend : slice b (b.length - 2) b.length = endMarker) :
    unframe b = .ok (.packet (b.getD 2 0#8) (b.getD 3 0#8) (slice b 4 (b.length - 2))) :=
  (if_neg (Nat.not_lt.2 hlen)).trans ((if_neg (not_not.2 hstart)).trans (if_neg (not_not.2 hend)))

/-- What PKT_UNFRAME opens passes its three checks. -/
theorem markers_of_unframe_ok {b : List Byte} {v : Value} (h : unframe b = .ok v) :
    6 ≤ b.length ∧ slice b 0 2 = startMarker ∧ slice b (b.length - 2) b.length = endMarker := by
  have hlen : 6 ≤ b.length := by
    by_contra hshort
    cases (unframe_of_short (Nat.lt_of_not_le hshort)).symm.trans h
  have hstart : slice b 0 2 = startMarker := by
    by_contra hbad
    cases (unframe_of_badStart hlen hbad).symm.trans h
  have hend : slice b (b.length - 2) b.length = endMarker := by
    by_contra hbad
    cases (unframe_of_badEnd hlen hstart hbad).symm.trans h
  exact ⟨hlen, hstart, hend⟩

theorem slice_ne_startMarker_iff {b : List Byte} (hlen : 6 ≤ b.length) :
    slice b 0 2 ≠ startMarker ↔ b.getD 0 0#8 ≠ 0x54#8 ∨ b.getD 1 0#8 ≠ 0x53#8 :=
  slice_ne_pair_iff (by omega) _ _

theorem slice_ne_endMarker_iff {b : List Byte} (hlen : 6 ≤ b.length) :
    slice b (b.length - 2) b.length ≠ endMarker ↔
      b.getD (b.length - 2) 0#8 ≠ 0x4E#8 ∨ b.getD (b.length - 1) 0#8 ≠ 0x45#8 := by
  have hpair := slice_ne_pair_iff (b := b) (i := b.length - 2) (by omega) 0x4E#8 0x45#8
  rwa [show b.length - 2 + 2 = b.length by omega, show b.length - 2 + 1 = b.length - 1 by omega] at hpair

/-! ## Corruption of a marker (R150) -/

/-- A packet that opens has a bad start once one of its first two bytes is replaced. -/
theorem unframe_set_start {b : List Byte} {w : Value} (h : unframe b = .ok w) {j : Nat} (hj : j < 2) {v : Byte}
    (hv : v ≠ b.getD j 0#8) : ∃ x y, unframe (b.set j v) = .err .badStart (.two x y) := by
  obtain ⟨hlen, hstart, -⟩ := markers_of_unframe_ok h
  have hslice := slice_set_ne (Nat.zero_le j) hj (by omega) hv
  exact ⟨_, _, unframe_of_badStart (by rwa [List.length_set]) (hstart ▸ hslice)⟩

/-- It has a bad end once one of its last two bytes is replaced, since the start stays as it was. -/
theorem unframe_set_end {b : List Byte} {w : Value} (h : unframe b = .ok w) {j : Nat} (hj : b.length - 2 ≤ j)
    (hj' : j < b.length) {v : Byte} (hv : v ≠ b.getD j 0#8) :
    ∃ x y, unframe (b.set j v) = .err .badEnd (.two x y) := by
  obtain ⟨hlen, hstart, hend⟩ := markers_of_unframe_ok h
  have hkeep : slice (b.set j v) 0 2 = startMarker := by
    rw [slice, List.drop_zero, Nat.sub_zero, List.take_set_of_le (by omega)]
    exact hstart
  have hslice := slice_set_ne hj hj' hj' hv
  exact ⟨_, _, unframe_of_badEnd (by rwa [List.length_set]) hkeep (by rw [List.length_set]; exact hend ▸ hslice)⟩

/-! ## PKT_FRAME and FRAG_SPLIT (R142, R145) -/

/-- The check of the command id comes first (R142). -/
theorem exec_pktFrame_of_badId {i : Byte} (hi : i.toNat < 1 ∨ 127 < i.toNat) (t : Byte) (p : List Byte) (s : State) :
    exec (.pktFrame i t p) s = s.reply (.err .badArgument (.num i.toNat)) :=
  if_pos hi

/-- The check of the command type comes next (R142). -/
theorem exec_pktFrame_of_unknown {i t : Byte} (hi : 1 ≤ i.toNat) (hi' : i.toNat ≤ 127) (ht : t ∉ Claims.sevenTypes)
    (p : List Byte) (s : State) : exec (.pktFrame i t p) s = s.reply (.err .badArgument (.num t.toNat)) := by
  have hrange : ¬ (i.toNat < 1 ∨ i.toNat > 127) := by omega
  have hunknown : knownCmdType t = false := Bool.eq_false_iff.2 (mt (knownCmdType_iff t).1 ht)
  exact (if_neg hrange).trans (if_pos hunknown)

/-- An operation has one answer. -/
theorem eq_of_replies {i : Instr} {s : State} {r r' : Result} (h : exec i s = s.reply r)
    (h' : Claims.Replies i s r') : r = r' := by
  simpa [State.answer] using h.symm.trans h'

/-- Under an index in range FRAG_SPLIT answers reports exactly where the packet fits (R102). -/
theorem replies_reports_iff {k : Byte} (hk : 1 ≤ k.toNat) (hk' : k.toNat ≤ 15) (p : List Byte) (s : State) :
    (∃ reps, Claims.Replies (.fragSplit p k) s (.ok (.reports reps))) ↔ p.length ≤ 840 := by
  constructor
  · rintro ⟨reps, hreps⟩
    by_contra hlong
    cases eq_of_replies (exec_fragSplit_of_tooLong hk hk' (Nat.lt_of_not_le hlong) s) hreps
  · exact fun hp => ⟨_, exec_fragSplit_of_fits hk hk' hp s⟩

end Sys2Proof.Machine

namespace Sys2Proof.Proofs

open Sys2Proof.Machine Sys2Proof.Claims

/-- Settles O38: the three checks in their order, each marker compared byte by byte. -/
theorem pktUnframeOpensPacket : Obligations.PktUnframeOpensPacket := by
  refine ⟨fun _ => rfl, fun b s => exec_pktUnframe_of_eq ?_ s⟩
  obtain hshort | hlen := Nat.lt_or_ge b.length 6
  · rw [if_pos hshort, unframe_of_short hshort]
  rw [if_neg (Nat.not_lt.2 hlen)]
  simp only [← slice_ne_startMarker_iff hlen, ← slice_ne_endMarker_iff hlen]
  split_ifs with hstart hend
  · exact unframe_of_badStart hlen hstart
  · exact unframe_of_badEnd hlen (not_not.1 hstart) hend
  · exact unframe_of_markers hlen (not_not.1 hstart) (not_not.1 hend)

/-- Settles O39: a framed packet opens to its parts, and packed data to its first byte and the rest. -/
theorem unframeOfFrameIsIdentity : Obligations.UnframeOfFrameIsIdentity :=
  ⟨fun i t p s s' hi hi' ht =>
    ⟨_, exec_pktFrame_of_known hi hi' ht p s, exec_pktUnframe_of_eq (unframe_framePacket i t p) s'⟩,
   fun _ _ _ _ => ⟨_, rfl, rfl⟩⟩

/-- Settles O40: the packet opens as it was framed, so each marker stands at its place before the byte is replaced. -/
theorem corruptedMarkerIsDetected : Obligations.CorruptedMarkerIsDetected := by
  intro i t v p j s hv
  have hopen : unframe (packetBytes i t p) = .ok (.packet i t p) := unframe_framePacket i t p
  have hlen : (packetBytes i t p).length = p.length + 6 := length_framePacket i t p
  refine ⟨fun hj => ?start, fun hj hj' => ?finish⟩
  case start =>
    obtain ⟨x, y, hbad⟩ := unframe_set_start hopen hj hv
    exact ⟨x, y, exec_pktUnframe_of_eq hbad s⟩
  case finish =>
    obtain ⟨x, y, hbad⟩ := unframe_set_end hopen (by omega) (by omega) hv
    exact ⟨x, y, exec_pktUnframe_of_eq hbad s⟩

/-- Settles O41: FRAG_SPLIT takes up to 840 bytes, six of which are the frame's. -/
theorem framedPacketFitsWhenDataFits : Obligations.FramedPacketFitsWhenDataFits := by
  intro i t k p s s' hi hi' ht hk hk'
  have hlen := length_framePacket i t p
  refine ⟨_, exec_pktFrame_of_known hi hi' ht p s, hlen, ?_⟩
  rw [replies_reports_iff hk hk', hlen]
  omega

/-- Settles O22: the id issued is in 1..127, so the operand and CMD_SEQ's seven bits both hold it. -/
theorem seqNextCmdIssuesNextId : Obligations.SeqNextCmdIssuesNextId := by
  refine ⟨fun _ => rfl, fun s => ?_⟩
  have hv := toNat_ofNat_seqNext (top := 127) (w := 8) (by decide) (by decide) s.cmdSeq.toNat
  have hn := toNat_ofNat_seqNext (top := 127) (w := 7) (by decide) (by decide) s.cmdSeq.toNat
  refine ⟨_, _, hv, hn.trans hv.symm, ?low, ?high, BitVec.toNat_ne.2 ?differs, exec_seqNextCmd s⟩
  case low => exact (one_le_seqNext _ _).trans hv.ge
  case high => exact hv.le.trans (seqNext_le (by decide) _)
  case differs => exact hn.trans_ne (seqNext_ne (by decide) (Nat.le_of_lt_succ s.cmdSeq.isLt))

/-- Settles O37: the three clauses are PKT_FRAME's three answers. -/
theorem pktFrameWrapsData : Obligations.PktFrameWrapsData :=
  ⟨fun _ => rfl, fun _ t p s => ⟨fun hi => exec_pktFrame_of_badId hi t p s,
    fun hi hi' ht => exec_pktFrame_of_unknown hi hi' ht p s, fun hi hi' ht => exec_pktFrame_of_known hi hi' ht p s⟩⟩

/-- Settles O42: DATA_UNPACK takes the data apart as a list, empty or not; no units make no run, hence no leader. -/
theorem dataPayloadPacksAndOpens : Obligations.DataPayloadPacksAndOpens := by
  refine ⟨fun _ => rfl, fun _ => rfl, fun _ _ _ => rfl, fun _ => rfl, fun p s hp => ?unpack, fun _ _ _ => ⟨rfl, rfl⟩⟩
  case unpack =>
    cases p with
    | nil => exact absurd rfl hp
    | cons f q => rfl

end Sys2Proof.Proofs
end

section
/-! PROOFS. The units of an interval, and the bytes of an encoded frame one by one (R170 to R176). -/

namespace Sys2Proof.Machine

/-! ## The units of an interval (R174) -/

theorem mem_timingUnits {m : Bool} {t : Nat} {u : Byte} (h : u ∈ timingUnits m t) :
    ∃ d, 1 ≤ d ∧ d ≤ 127 ∧ u = timingUnit m d := by
  obtain hfull | hrest := List.mem_append.1 h
  · exact ⟨127, by decide, by decide, List.eq_of_mem_replicate hfull⟩
  · split at hrest
    next hpos =>
      simp only [Config.unitMax] at hpos
      exact ⟨t % 127, by omega, by omega, List.mem_singleton.1 hrest⟩
    next => simp at hrest

theorem polarity_of_mem_timingUnits {m : Bool} {t : Nat} {u : Byte} (h : u ∈ timingUnits m t) : polarity u = m := by
  obtain ⟨d, -, hd, rfl⟩ := mem_timingUnits h
  exact polarity_timingUnit m hd

theorem one_le_duration_of_mem_timingUnits {m : Bool} {t : Nat} {u : Byte} (h : u ∈ timingUnits m t) :
    1 ≤ duration u := by
  obtain ⟨d, hpos, hd, rfl⟩ := mem_timingUnits h
  exact (duration_timingUnit m hd).symm ▸ hpos

theorem length_timingUnits (m : Bool) (t : Nat) : (timingUnits m t).length = (t + 126) / 127 := by
  simp only [timingUnits, Config.unitMax, List.length_append, List.length_replicate]
  split <;> simp only [List.length_singleton, List.length_nil] <;> omega

theorem getElem?_timingUnits_full (m : Bool) {t j : Nat} (h : j < t / 127) :
    (timingUnits m t)[j]? = some (timingUnit m 127) := by
  rw [timingUnits, List.getElem?_append_left (by simpa using h), List.getElem?_replicate_of_lt h]

/-- The ticks of a sequence, whatever its polarities. -/
def totalTicks (q : List Byte) : Nat := (q.map fun u => u.toNat % 128).sum

theorem totalTicks_append (x y : List Byte) : totalTicks (x ++ y) = totalTicks x + totalTicks y := by
  simp [totalTicks]

theorem totalTicks_replicate (n : Nat) (u : Byte) : totalTicks (List.replicate n u) = n * duration u := by
  simp [totalTicks, duration_eq]

theorem totalTicks_singleton (u : Byte) : totalTicks [u] = duration u := by
  simp [totalTicks, duration_eq]

/-- The units of an interval carry its ticks (R174). -/
theorem totalTicks_timingUnits (m : Bool) (t : Nat) : totalTicks (timingUnits m t) = t := by
  have hrest : t % 127 < 127 := Nat.mod_lt _ (by decide)
  simp only [timingUnits, Config.unitMax, totalTicks_append, totalTicks_replicate, duration_timingUnit m le_rfl]
  split
  · rw [totalTicks_singleton, duration_timingUnit m hrest.le]
    omega
  next hzero =>
    simp only [totalTicks, List.map_nil, List.sum_nil]
    omega

/-! ## The bits of a frame (R170) -/

theorem getElem?_bitsOf (b : Byte) {i : Nat} (h : i < 8) : (bitsOf b)[i]? = some (b.getLsbD i) := by
  simp [bitsOf, h]

theorem length_bitsOf (b : Byte) : (bitsOf b).length = 8 := by simp [bitsOf]

/-- The bits of an inverted byte are the bits inverted. -/
theorem bitsOf_xor_ones (b : Byte) : bitsOf (b ^^^ 0xFF#8) = (bitsOf b).map not := by
  have hbit : ∀ i < 8, (b ^^^ 0xFF#8).getLsbD i = !b.getLsbD i := by
    intro i hi
    rw [show (0xFF#8 : Byte) = BitVec.allOnes 8 from rfl, BitVec.xor_allOnes, BitVec.getLsbD_not]
    simp [hi]
  simp only [bitsOf, List.map_map]
  exact List.map_congr_left fun i hi => hbit i (List.mem_range.1 hi)

theorem frameBits_eq (a c : Byte) :
    frameBits a c = bitsOf a ++ ((bitsOf a).map not ++ (bitsOf c ++ (bitsOf c).map not)) := by
  simp [frameBits, bitsOf_xor_ones]

theorem length_frameBits (a c : Byte) : (frameBits a c).length = 32 := rfl

theorem getElem?_bitsOf_not (b : Byte) {i : Nat} (h : i < 8) : ((bitsOf b).map not)[i]? = some (!b.getLsbD i) := by
  rw [List.getElem?_map, getElem?_bitsOf b h, Option.map_some]

/-- Frame bit k stands at place k (R170). -/
theorem getElem?_frameBits (a c : Byte) {k : Nat} (hk : k < 32) :
    (frameBits a c)[k]? = some (Claims.frameBit a c k) := by
  have ha := length_bitsOf a
  have hc := length_bitsOf c
  have ha' : ((bitsOf a).map not).length = 8 := (List.length_map _).trans ha
  simp only [frameBits_eq, Claims.frameBit]
  split_ifs with h8 h16 h24
  · rw [List.getElem?_append_left (ha ▸ h8), getElem?_bitsOf a h8]
  · rw [List.getElem?_append_right (by omega), ha, List.getElem?_append_left (by omega),
      getElem?_bitsOf_not a (by omega)]
  · rw [List.getElem?_append_right (by omega), ha, List.getElem?_append_right (by omega), ha',
      List.getElem?_append_left (by omega), getElem?_bitsOf c (by omega), Nat.sub_sub]
  · rw [List.getElem?_append_right (by omega), ha, List.getElem?_append_right (by omega), ha',
      List.getElem?_append_right (by omega), hc, getElem?_bitsOf_not c (by omega), Nat.sub_sub, Nat.sub_sub]

/-- A byte and its inverse hold eight ones together (R176). -/
theorem count_true_bitsOf_add_not (b : Byte) : (bitsOf b).count true + ((bitsOf b).map not).count true = 8 := by
  have hnot : ((bitsOf b).map not).count true = (bitsOf b).count false :=
    List.count_map_of_injective (bitsOf b) not Bool.not_injective false
  rw [hnot, List.count_true_add_count_false, length_bitsOf]

theorem count_true_frameBits (a c : Byte) : (frameBits a c).count true = 16 := by
  have ha := count_true_bitsOf_add_not a
  have hc := count_true_bitsOf_add_not c
  simp only [frameBits_eq, List.count_append]
  omega

/-! ## The bytes of an encoded frame (R175, R176) -/

theorem bitUnits_eq (bit : Bool) : bitUnits bit = [0xA3#8, if bit then 0x69#8 else 0x23#8] := by
  cases bit <;> decide

theorem leaderUnits_eq :
    leaderUnits = [0xFF#8, 0xFF#8, 0xFF#8, 0xFF#8, 0xB7#8, 0x7F#8, 0x7F#8, 0x1B#8] := by decide

theorem length_leaderUnits : leaderUnits.length = 8 := by rw [leaderUnits_eq]; rfl

theorem stopUnits_eq : timingUnits true (ticksOf Config.stopMark) = [0xA3#8] := by decide

theorem necEncode_eq (a c : Byte) :
    necEncode a c = leaderUnits ++ ((frameBits a c).flatMap bitUnits ++ [0xA3#8]) := by
  rw [necEncode, stopUnits_eq, List.append_assoc]

theorem length_pairs (a c : Byte) : ((frameBits a c).flatMap bitUnits).length = 64 := length_flatMap_bitUnits _

/-- The bytes behind the leader. -/
theorem getElem?_necEncode (a c : Byte) (i : Nat) :
    (necEncode a c)[8 + i]? = ((frameBits a c).flatMap bitUnits ++ [0xA3#8])[i]? := by
  rw [necEncode_eq, List.getElem?_append_right (length_leaderUnits ▸ Nat.le_add_right 8 i), length_leaderUnits,
    Nat.add_sub_cancel_left]

theorem take_necEncode_of_le (a c : Byte) {n : Nat} (h : n ≤ 8) : (necEncode a c).take n = leaderUnits.take n := by
  rw [necEncode_eq, List.take_append_of_le_length (length_leaderUnits ▸ h)]

theorem take_necEncode_add (a c : Byte) (m : Nat) :
    (necEncode a c).take (8 + m) = leaderUnits ++ ((frameBits a c).flatMap bitUnits ++ [0xA3#8]).take m := by
  have h := List.take_length_add_append (l₁ := leaderUnits) (l₂ := (frameBits a c).flatMap bitUnits ++ [0xA3#8]) m
  rwa [length_leaderUnits, ← necEncode_eq] at h

/-- The mark of pair k stands at place 2k of the pairs. -/
theorem getElem?_flatMap_bitUnits_mark {bits : List Bool} {k : Nat} (h : k < bits.length) :
    (bits.flatMap bitUnits)[2 * k]? = some 0xA3#8 := by
  induction bits generalizing k with
  | nil => simp at h
  | cons bit bits ih =>
    rw [List.flatMap_cons, bitUnits_eq]
    cases k with
    | zero => rfl
    | succ k => exact ih (Nat.lt_of_succ_lt_succ h)

/-- The space of pair k follows its mark. -/
theorem getElem?_flatMap_bitUnits_space {bits : List Bool} {k : Nat} {bit : Bool} (h : bits[k]? = some bit) :
    (bits.flatMap bitUnits)[2 * k + 1]? = some (if bit then 0x69#8 else 0x23#8) := by
  induction bits generalizing k with
  | nil => simp at h
  | cons b bits ih =>
    rw [List.flatMap_cons, bitUnits_eq]
    cases k with
    | zero =>
      obtain rfl : b = bit := by simpa using h
      rfl
    | succ k => exact ih h

/-- A pair lasts 70 ticks, and 70 more for a one (R176). -/
theorem totalTicks_flatMap_bitUnits (bits : List Bool) :
    totalTicks (bits.flatMap bitUnits) = 70 * bits.length + 70 * bits.count true := by
  induction bits with
  | nil => rfl
  | cons bit bits ih =>
    have hpair : totalTicks (bitUnits bit) = 70 + if bit then 70 else 0 := by cases bit <;> decide
    rw [List.flatMap_cons, totalTicks_append, hpair, ih]
    cases bit <;> simp <;> omega

theorem totalTicks_necEncode (a c : Byte) : totalTicks (necEncode a c) = 4239 := by
  have hleader : totalTicks leaderUnits = 563 + 281 := by decide
  have hstop : totalTicks [0xA3#8] = 35 := by decide
  rw [necEncode_eq, totalTicks_append, totalTicks_append, hleader, hstop, totalTicks_flatMap_bitUnits,
    length_frameBits, count_true_frameBits]

end Sys2Proof.Machine

namespace Sys2Proof.Proofs

open Sys2Proof.Machine Sys2Proof.Claims

/-- Settles O44: the full units and the remainder, each with its polarity and its ticks. -/
theorem timingUnitsCarryInterval : Obligations.TimingUnitsCarryInterval := by
  intro m t _
  have hfull : timingUnit m 127 = if m then 0xFF#8 else 0x7F#8 := by cases m <;> decide
  exact ⟨length_timingUnits m t, fun j hj => hfull ▸ getElem?_timingUnits_full m hj,
    fun u hu => ⟨polarity_of_mem_timingUnits hu, duration_eq u ▸ one_le_duration_of_mem_timingUnits hu⟩,
    totalTicks_timingUnits m t⟩

/-- Settles O45: the eight leader bytes, a mark and a space for each frame bit, and the stop mark. Of the 32 bits 16 are
ones, so the total does not depend on the pair. -/
theorem necEncodeOutputShape : Obligations.NecEncodeOutputShape := by
  intro a c s
  have hlen := length_pairs a c
  refine ⟨necEncode a c, rfl, length_necEncode a c, ?leader, fun k hk => ⟨?mark, ?space⟩, ?stop,
    totalTicks_necEncode a c⟩
  case leader =>
    rw [take_necEncode_of_le a c le_rfl, leaderUnits_eq]
    rfl
  case mark =>
    rw [getElem?_necEncode, List.getElem?_append_left (by omega), getElem?_flatMap_bitUnits_mark hk]
  case space =>
    rw [show 9 + 2 * k = 8 + (2 * k + 1) by omega, getElem?_necEncode, List.getElem?_append_left (by omega),
      getElem?_flatMap_bitUnits_space (getElem?_frameBits a c hk)]
  case stop =>
    rw [show 72 = 8 + 64 from rfl, getElem?_necEncode, ← hlen, List.getElem?_concat_length]

/-- Settles O43: the rule is the definition, and the five values are computed by it. -/
theorem nominalDurationsInTicks : Obligations.NominalDurationsInTicks :=
  ⟨fun _ => rfl, rfl, rfl, rfl, rfl, rfl⟩

end Sys2Proof.Proofs
end

section
/-! PROOFS. Runs as groups of units, and NEC_DECODE's decision on them by the indices of its pseudocode (R178 to
R186). -/

namespace Sys2Proof.Machine

/-- NEC_DECODE answers what its decision on the sequence is, and no more. -/
theorem replies_necDecode_iff {q : List Byte} {s : State} {r : Result} :
    Claims.Replies (.necDecode q) s r ↔ necDecode Config.tol q = r :=
  ⟨fun h => eq_of_replies (i := .necDecode q) rfl h, fun h => congrArg (fun r => State.reply r s) h⟩

/-! ## Runs as groups of units (R178) -/

/-- Put a unit in front of the groups that follow it: `consUnit` with the units kept. -/
def consGroup (u : Byte) : List (Bool × List Byte) → List (Bool × List Byte)
  | [] => [(polarity u, [u])]
  | g :: gs => if g.1 = polarity u then (g.1, u :: g.2) :: gs else (polarity u, [u]) :: g :: gs

/-- The maximal groups of one polarity, in order. -/
def groupsOf (q : List Byte) : List (Bool × List Byte) := q.foldr consGroup []

/-- The run a group is merged into. -/
def groupRun (g : Bool × List Byte) : Run := ⟨g.1, totalTicks g.2⟩

theorem consGroup_cases (u : Byte) (gs : List (Bool × List Byte)) :
    (∃ us rest, gs = (polarity u, us) :: rest ∧ consGroup u gs = (polarity u, u :: us) :: rest) ∨
    ((∀ g ∈ gs.head?, g.1 ≠ polarity u) ∧ consGroup u gs = (polarity u, [u]) :: gs) := by
  cases gs with
  | nil => exact .inr ⟨by simp, rfl⟩
  | cons g gs =>
    obtain ⟨m, us⟩ := g
    by_cases h : m = polarity u
    · subst h
      exact .inl ⟨us, gs, rfl, if_pos rfl⟩
    · exact .inr ⟨by simpa using h, if_neg h⟩

theorem map_groupRun_consGroup (u : Byte) (gs : List (Bool × List Byte)) :
    (consGroup u gs).map groupRun = consUnit u (gs.map groupRun) := by
  cases gs with
  | nil => simp [consGroup, consUnit, groupRun, totalTicks_singleton]
  | cons g gs =>
    by_cases h : g.1 = polarity u
    · simp [consGroup, consUnit, groupRun, h, totalTicks, duration_eq]
    · simp [consGroup, consUnit, groupRun, h, totalTicks_singleton]

theorem map_groupRun_groupsOf (q : List Byte) : (groupsOf q).map groupRun = q.foldr consUnit [] := by
  induction q with
  | nil => rfl
  | cons u q ih => exact (map_groupRun_consGroup u _).trans (congrArg (consUnit u) ih)

theorem flatMap_groupsOf (q : List Byte) : (groupsOf q).flatMap (·.2) = q := by
  induction q with
  | nil => rfl
  | cons u q ih =>
    show (consGroup u (groupsOf q)).flatMap (·.2) = _
    obtain ⟨us, rest, hgs, hcons⟩ | ⟨-, hcons⟩ := consGroup_cases u (groupsOf q)
    · rw [hgs] at ih
      rw [hcons, ← ih]
      rfl
    · rw [hcons, List.flatMap_cons, ih]
      rfl

theorem ne_nil_and_polarity_of_mem_groupsOf {q : List Byte} {g : Bool × List Byte} (hg : g ∈ groupsOf q) :
    g.2 ≠ [] ∧ ∀ u ∈ g.2, polarity u = g.1 := by
  induction q generalizing g with
  | nil => simp [groupsOf] at hg
  | cons u q ih =>
    change g ∈ consGroup u (groupsOf q) at hg
    obtain ⟨us, rest, hgs, hcons⟩ | ⟨-, hcons⟩ := consGroup_cases u (groupsOf q)
    · rw [hcons] at hg
      obtain rfl | hg := List.mem_cons.1 hg
      · have hus := ih (g := (polarity u, us)) (by simp [hgs])
        simpa using hus.2
      · exact ih (by simp [hgs, hg])
    · rw [hcons] at hg
      obtain rfl | hg := List.mem_cons.1 hg
      · simp
      · exact ih hg

/-- Neighbouring groups differ in polarity. -/
theorem isChain_groupsOf (q : List Byte) : (groupsOf q).IsChain (fun g h => h.1 ≠ g.1) := by
  induction q with
  | nil => exact .nil
  | cons u q ih =>
    show (consGroup u (groupsOf q)).IsChain _
    obtain ⟨us, rest, hgs, hcons⟩ | ⟨hhead, hcons⟩ := consGroup_cases u (groupsOf q)
    · rw [hgs] at ih
      rw [hcons]
      exact List.isChain_cons.2 (List.isChain_cons.1 ih)
    · rw [hcons]
      exact List.isChain_cons.2 ⟨fun h hh => hhead h hh, ih⟩

/-- The runs of a sequence are the groups of its non-zero units, merged (R178). -/
theorem runs_eq_map_groupRun (q : List Byte) :
    runs q = (groupsOf (q.filter fun u => u.toNat % 128 ≠ 0)).map groupRun := by
  simp only [runs, map_groupRun_groupsOf, duration_eq]

/-! ## Windows (R180, R181) -/

theorem inwin_tol_iff (t n : Nat) : inwin Config.tol t n = true ↔ Claims.within t n := by
  simp only [inwin, decide_eq_true_eq, Config.husPerTick, Claims.within]
  omega

theorem inwin_leaderMark_iff (t : Nat) : inwin Config.tol t 18000 = true ↔ 422 ≤ t ∧ t ≤ 703 := by
  rw [inwin_tol_iff]
  omega

theorem inwin_leaderSpace_iff (t : Nat) : inwin Config.tol t 9000 = true ↔ 211 ≤ t ∧ t ≤ 351 := by
  rw [inwin_tol_iff]
  omega

theorem inwin_repeatSpace_iff (t : Nat) : inwin Config.tol t 4500 = true ↔ 106 ≤ t ∧ t ≤ 175 := by
  rw [inwin_tol_iff]
  omega

theorem inwin_bitMark_iff (t : Nat) : inwin Config.tol t 1125 = true ↔ 27 ≤ t ∧ t ≤ 43 := by
  rw [inwin_tol_iff]
  omega

/-! ## The pairs by their indices (R182, R183) -/

/-- Bit k of the runs after the leader, by the run that carries it. -/
def pairBit (rest : List Run) (k : Nat) : Bool := bitOf (rest.getD (2 * k + 1) ⟨false, 0⟩).ticks

/-- Enough runs give all the bits. -/
theorem pairBits_of_le {n : Nat} {rest : List Run} (h : 2 * n ≤ rest.length) (k : Nat) :
    pairBits n k rest = .ok ((List.range n).map (pairBit rest)) := by
  induction n generalizing k rest with
  | zero => rfl
  | succ n ih =>
    obtain _ | ⟨mark, _ | ⟨space, rest⟩⟩ := rest
    · simp at h
    · simp only [List.length_singleton] at h; omega
    · have hrest : 2 * n ≤ rest.length := by simp only [List.length_cons] at h; omega
      rw [pairBits, ih hrest, List.range_succ_eq_map, List.map_cons, List.map_map]
      rfl

/-- Too few give the number of complete pairs. -/
theorem pairBits_of_lt {n : Nat} {rest : List Run} (h : rest.length < 2 * n) (k : Nat) :
    pairBits n k rest = .error (k + rest.length / 2) := by
  induction n generalizing k rest with
  | zero => simp at h
  | succ n ih =>
    obtain _ | ⟨mark, _ | ⟨space, rest⟩⟩ := rest
    · rfl
    · simp [pairBits]
    · have hrest : rest.length < 2 * n := by simp only [List.length_cons] at h; omega
      rw [pairBits, ih hrest]
      simp only [List.length_cons, Except.error.injEq]
      omega

/-- A byte as the sum of its bits' weights (R183). -/
theorem foldr_bits_eq_sum (f : Nat → Bool) (n : Nat) :
    ((List.range n).map f).foldr (fun b v => b.toNat + 2 * v) 0 =
      ((List.range n).map fun i => (f i).toNat * 2 ^ i).sum := by
  induction n generalizing f with
  | zero => rfl
  | succ n ih =>
    have hdouble : ((List.range n).map fun i => (f (i + 1)).toNat * 2 ^ (i + 1)).sum =
        2 * ((List.range n).map fun i => (f (i + 1)).toNat * 2 ^ i).sum := by
      rw [← List.sum_map_mul_left]
      simp only [pow_succ, mul_comm, mul_left_comm]
    rw [List.range_succ_eq_map, List.map_cons, List.map_map, List.foldr_cons, ih, List.map_cons, List.map_map,
      List.sum_cons, pow_zero, mul_one]
    exact congrArg _ hdouble.symm

/-- Byte j takes the eight bits from 8j on. -/
theorem frameByte_map_range (f : Nat → Bool) {j : Nat} (hj : j < 4) :
    frameByte ((List.range 32).map f) j =
      BitVec.ofNat 8 ((List.range 8).map fun i => (f (8 * j + i)).toNat * 2 ^ i).sum := by
  have hbits : (((List.range 32).map f).drop (8 * j)).take 8 = (List.range 8).map fun i => f (8 * j + i) := by
    have hrange : ((List.range 32).drop (8 * j)).take 8 = (List.range 8).map (8 * j + ·) := by
      revert j
      decide
    rw [← List.map_drop, ← List.map_take, hrange, List.map_map]
    rfl
  rw [frameByte, hbits, byteOfBits, foldr_bits_eq_sum]

theorem captureRuns_eq (q : List Byte) : captureRuns q = (runs q).dropWhile (fun r => r.mark = false) := by
  have hmark : (fun r : Run => !r.mark) = fun r => decide (r.mark = false) := by
    funext r
    cases r.mark <;> rfl
  rw [captureRuns, hmark]

/-- Fewer than 32 pairs are a truncated frame (R183). -/
theorem decodeFrame_of_lt {rest : List Run} (h : rest.length < 64) :
    decodeFrame rest = .err .truncated (.num (rest.length / 2)) := by
  rw [decodeFrame, pairBits_of_lt (n := 32) h, Nat.zero_add]

/-- Byte j of the frame by the indices of R183's pseudocode, where the runs begin with the leader. -/
def ruleByte (r : List Run) (j : Nat) : Byte :=
  BitVec.ofNat 8 ((List.range 8).map fun i =>
    (if 2250 ≤ 32 * (r.getD (3 + 2 * (8 * j + i)) ⟨false, 0⟩).ticks then 1 else 0) * 2 ^ i).sum

/-- Bit k is carried by run 3 + 2k, counted from the leader mark (R183). -/
theorem toNat_pairBit (mark space : Run) (rest : List Run) (k : Nat) :
    (pairBit rest k).toNat =
      if 2250 ≤ 32 * ((mark :: space :: rest).getD (3 + 2 * k) ⟨false, 0⟩).ticks then 1 else 0 := by
  rw [show 3 + 2 * k = 2 * k + 1 + 1 + 1 by omega, List.getD_cons_succ, List.getD_cons_succ, pairBit, bitOf]
  exact Bool.cond_decide _ _ _

/-- With 32 pairs the checksum decides on the four bytes (R183, R185). -/
theorem decodeFrame_of_le (mark space : Run) {rest : List Run} (h : 64 ≤ rest.length) :
    decodeFrame rest = checkFrame (ruleByte (mark :: space :: rest) 0) (ruleByte (mark :: space :: rest) 1)
      (ruleByte (mark :: space :: rest) 2) (ruleByte (mark :: space :: rest) 3) := by
  have hbyte : ∀ j < 4, frameByte ((List.range 32).map (pairBit rest)) j = ruleByte (mark :: space :: rest) j := by
    intro j hj
    rw [frameByte_map_range _ hj]
    simp only [toNat_pairBit mark space, ruleByte]
  rw [decodeFrame, pairBits_of_le (n := 32) h, ← hbyte 0 (by decide), ← hbyte 1 (by decide), ← hbyte 2 (by decide),
    ← hbyte 3 (by decide)]

/-- The pseudocode's decision on a mark alone (R183). -/
theorem decodeByRule_singleton (mark : Run) : Claims.decodeByRule [mark] =
    if ¬ Claims.within mark.ticks 18000 then .err .invalidLeader (.num 0) else .err .truncated (.num 0) := rfl

/-- The pseudocode's decision where there is a leader mark and a space (R183). -/
theorem decodeByRule_cons_cons (mark space : Run) (rest : List Run) :
    Claims.decodeByRule (mark :: space :: rest) =
      if ¬ Claims.within mark.ticks 18000 then .err .invalidLeader (.num 0)
      else if Claims.within space.ticks 9000 then
        if rest.length < 64 then .err .truncated (.num (rest.length / 2))
        else checkFrame (ruleByte (mark :: space :: rest) 0) (ruleByte (mark :: space :: rest) 1)
          (ruleByte (mark :: space :: rest) 2) (ruleByte (mark :: space :: rest) 3)
      else if Claims.within space.ticks 4500 then
        if rest.length = 0 then .err .truncated (.num 0)
        else if Claims.within (rest.getD 0 ⟨false, 0⟩).ticks 1125 then .ok .repeatCode
        else .err .invalidLeader (.num 2)
      else .err .invalidLeader (.num 1) := by
  have hne : ¬ (mark :: space :: rest).length = 0 := Nat.succ_ne_zero _
  have htwo : ¬ (mark :: space :: rest).length < 2 := by simp
  have hpairs : (mark :: space :: rest).length < 66 ↔ rest.length < 64 := by simp only [List.length_cons]; omega
  have hthree : (mark :: space :: rest).length < 3 ↔ rest.length = 0 := by simp only [List.length_cons]; omega
  rw [Claims.decodeByRule, if_neg hne, if_neg htwo]
  simp only [hpairs, hthree]
  rfl

/-- The recursion on the runs and the indexed pseudocode decide alike (R183). -/
theorem decodeRuns_eq_decodeByRule (rs : List Run) : decodeRuns Config.tol rs = Claims.decodeByRule rs := by
  obtain _ | ⟨mark, _ | ⟨space, rest⟩⟩ := rs
  · rfl
  · rw [decodeByRule_singleton, decodeRuns, ite_not]
    exact if_congr (inwin_tol_iff _ _) rfl rfl
  rw [decodeByRule_cons_cons, decodeRuns, ite_not]
  refine if_congr (inwin_tol_iff _ _) (if_congr (inwin_tol_iff _ _) ?frame (if_congr (inwin_tol_iff _ _) ?rep rfl)) rfl
  case frame =>
    split_ifs with hlen
    · exact decodeFrame_of_lt hlen
    · exact decodeFrame_of_le mark space (Nat.le_of_not_lt hlen)
  case rep =>
    cases rest with
    | nil => rfl
    | cons r rest => exact (if_congr (inwin_tol_iff _ _) rfl rfl).trans (if_neg (Nat.succ_ne_zero _)).symm

/-! ## The decoder on what comes first -/

/-- A zero-tick unit makes no difference to the runs (R178). -/
theorem runs_insert_zero {u : Byte} (h : duration u = 0) (x y : List Byte) : runs (x ++ u :: y) = runs (x ++ y) := by
  simp [runs, h]

/-- A space unit in front makes no difference from the first mark on (R179). -/
theorem captureRuns_cons_space {v : Byte} (h : polarity v = false) (q : List Byte) :
    captureRuns (v :: q) = captureRuns q := by
  by_cases hzero : duration v = 0
  · rw [captureRuns, runs_cons_zero q hzero, captureRuns]
  rw [captureRuns, runs_cons q hzero, captureRuns]
  cases runs q with
  | nil => simp [consUnit, h]
  | cons r rs => cases hm : r.mark <;> simp [consUnit, h, hm]

theorem captureRuns_append_spaces {x : List Byte} (h : ∀ v ∈ x, polarity v = false) (y : List Byte) :
    captureRuns (x ++ y) = captureRuns y := by
  induction x with
  | nil => rfl
  | cons v x ih =>
    obtain ⟨hv, hx⟩ := List.forall_mem_cons.1 h
    rw [List.cons_append, captureRuns_cons_space hv, ih hx]

/-- Runs that begin with a mark are all kept. -/
theorem captureRuns_of_runs {q : List Byte} {t : Nat} {rs : List Run} (h : runs q = ⟨true, t⟩ :: rs) :
    captureRuns q = ⟨true, t⟩ :: rs := by
  rw [captureRuns, h]
  rfl

/-- Behind a full-frame leader the pairs decide (R183). -/
theorem necDecode_of_leader {q : List Byte} {m p : Nat} {rest : List Run}
    (h : runs q = ⟨true, m⟩ :: ⟨false, p⟩ :: rest) (hm : 422 ≤ m ∧ m ≤ 703) (hp : 211 ≤ p ∧ p ≤ 351) :
    necDecode Config.tol q = decodeFrame rest := by
  rw [necDecode, captureRuns_of_runs h, decodeRuns, if_pos ((inwin_leaderMark_iff m).2 hm), decodeAfterMark,
    if_pos ((inwin_leaderSpace_iff p).2 hp)]

/-- A repeat code behind its leader mark (R186). -/
theorem necDecode_of_repeat {q : List Byte} {m p b : Nat} {rest : List Run}
    (h : runs q = ⟨true, m⟩ :: ⟨false, p⟩ :: ⟨true, b⟩ :: rest) (hm : 422 ≤ m ∧ m ≤ 703) (hp : 106 ≤ p ∧ p ≤ 175)
    (hb : 27 ≤ b ∧ b ≤ 43) : necDecode Config.tol q = .ok .repeatCode := by
  have hleader : ¬ inwin Config.tol p Config.leaderSpace = true := by
    rw [inwin_leaderSpace_iff]
    omega
  rw [necDecode, captureRuns_of_runs h, decodeRuns, if_pos ((inwin_leaderMark_iff m).2 hm), decodeAfterMark,
    if_neg hleader, if_pos ((inwin_repeatSpace_iff p).2 hp), decodeRepeat, if_pos ((inwin_bitMark_iff b).2 hb)]

end Sys2Proof.Machine

namespace Sys2Proof.Proofs

open Sys2Proof.Machine Sys2Proof.Claims

/-- Settles O46: the groups are collected unit by unit, as the runs are. -/
theorem runsMergeUnitsOfOnePolarity : Obligations.RunsMergeUnitsOfOnePolarity := by
  intro q
  refine ⟨groupsOf (q.filter fun u => u.toNat % 128 ≠ 0), flatMap_groupsOf _,
    fun _ => ne_nil_and_polarity_of_mem_groupsOf, fun j g h hg hh => ?_, runs_eq_map_groupRun q⟩
  obtain ⟨_, rfl⟩ := List.getElem?_eq_some_iff.1 hg
  obtain ⟨hj, rfl⟩ := List.getElem?_eq_some_iff.1 hh
  exact (isChain_groupsOf _).getElem j hj

/-- Settles O47: the windows of the four nominal durations; the two of a space do not meet. -/
theorem windowsInTicks : Obligations.WindowsInTicks := by
  intro t
  refine ⟨inwin_leaderMark_iff t, inwin_leaderSpace_iff t, inwin_repeatSpace_iff t, inwin_bitMark_iff t, ?disjoint⟩
  rintro ⟨hlong, hshort⟩
  have hlow := ((inwin_leaderSpace_iff t).1 hlong).1
  have hhigh := ((inwin_repeatSpace_iff t).1 hshort).2
  omega

/-- Settles O48: the run indices of the pseudocode are places in the runs from the first mark on. -/
theorem necDecodeFollowsPseudocode : Obligations.NecDecodeFollowsPseudocode := by
  refine ⟨fun _ => rfl, fun q s => replies_necDecode_iff.2 ?_⟩
  rw [necDecode, captureRuns_eq, decodeRuns_eq_decodeByRule]

/-- Settles O51: the three intervals are a run each, in the windows of a repeat code. -/
theorem repeatCodeIsRecognised : Obligations.RepeatCodeIsRecognised := by
  intro m p b s hm hm' hp hp' hb hb'
  have hlast : runs (timingUnits true b) = [⟨true, b⟩] := by
    simpa using runs_timingUnits_append true (t := b) [] (by omega) (by simp)
  have hruns := runs_mark_space (m := m) (p := p) (by omega) (by omega) (q := timingUnits true b)
    (hlast ▸ not_headMark_of_headMark ⟨_, _, rfl, rfl⟩)
  rw [hlast] at hruns
  exact replies_necDecode_iff.2 (necDecode_of_repeat hruns ⟨hm, hm'⟩ ⟨hp, hp'⟩ ⟨hb, hb'⟩)

/-- Settles O52: neither changes the runs from the first mark on. -/
theorem idleAndZeroUnitsAreSkipped : Obligations.IdleAndZeroUnitsAreSkipped := by
  intro x y u s r
  simp only [replies_necDecode_iff, necDecode]
  refine ⟨fun hu h => ?zero, fun hx h => ?spaces⟩
  case zero => rwa [captureRuns, runs_insert_zero ((duration_eq u).trans hu)]
  case spaces => rwa [captureRuns_append_spaces hx]

end Sys2Proof.Proofs
end

section
/-! PROOFS. What the first bytes of an encoded frame decode to, and the whole of it (R187 to R189). -/

namespace Sys2Proof.Machine

/-! ## The first bytes of an encoded frame (R189) -/

theorem not_headMark_false_flatMap_bitRuns (bits : List Bool) {rs : List Run} (h : ¬ headMark false rs) :
    ¬ headMark false (bits.flatMap bitRuns ++ rs) := by
  cases bits with
  | nil => exact h
  | cons => exact not_headMark_of_headMark ⟨_, _, rfl, rfl⟩

/-- Pairs are two runs each where no space follows, be it a mark or nothing at all. -/
theorem runs_flatMap_bitUnits_append_of_no_space (bits : List Bool) {q : List Byte} (hq : ¬ headMark false (runs q)) :
    runs (bits.flatMap bitUnits ++ q) = bits.flatMap bitRuns ++ runs q := by
  obtain rfl | ⟨bits, bit, rfl⟩ := bits.eq_nil_or_concat
  · rfl
  · have hlast := runs_bitUnits_append bit hq
    have hbits := runs_flatMap_bitUnits_append bits (q := bitUnits bit ++ q) (hlast ▸ ⟨_, _, rfl, rfl⟩)
    simpa [hlast] using hbits

/-- Behind a leader and some pairs, where no space follows, the pairs' runs decide. -/
theorem necDecode_leader_pairs (bits : List Bool) {q : List Byte} (hq : ¬ headMark false (runs q)) :
    necDecode Config.tol (leaderUnits ++ (bits.flatMap bitUnits ++ q)) =
      decodeFrame (bits.flatMap bitRuns ++ runs q) := by
  have hbits := runs_flatMap_bitUnits_append_of_no_space bits hq
  have hruns := runs_mark_space (m := 563) (p := 281) (by decide) (by decide)
    (hbits ▸ not_headMark_false_flatMap_bitRuns bits hq)
  rw [hbits] at hruns
  exact necDecode_of_leader hruns (by decide) (by decide)

theorem length_flatMap_bitRuns (bits : List Bool) : (bits.flatMap bitRuns).length = 2 * bits.length := by
  simp [List.length_flatMap, bitRuns, Nat.mul_comm]

/-- The frame's pairs decode to it, whatever runs follow (R187). -/
theorem decodeFrame_flatMap_bitRuns (a c : Byte) (rs : List Run) :
    decodeFrame ((frameBits a c).flatMap bitRuns ++ rs) = .ok (.frame a c) := by
  have hpairs : ∀ rs, pairBits Config.necBits 0 ((frameBits a c).flatMap bitRuns ++ rs) = .ok (frameBits a c) :=
    pairBits_flatMap_bitRuns (frameBits a c) 0
  have hstop : ¬ headMark false (runs [0xA3#8]) := not_headMark_of_headMark (headMark_stop_append [])
  have hframe := necDecode_necEncode a c
  rw [necEncode_eq, necDecode_leader_pairs _ hstop] at hframe
  rw [← hframe, decodeFrame, decodeFrame, hpairs, hpairs]

/-- The first m bytes of pairs are the whole pairs among them and, where m is odd, the mark of one more. -/
theorem take_flatMap_bitUnits {bits : List Bool} {m : Nat} (h : m ≤ 2 * bits.length) :
    (bits.flatMap bitUnits).take m =
      (bits.take (m / 2)).flatMap bitUnits ++ List.replicate (m % 2) 0xA3#8 := by
  induction bits generalizing m with
  | nil => obtain rfl : m = 0 := Nat.le_zero.1 h; rfl
  | cons bit bits ih =>
    rw [List.flatMap_cons, bitUnits_eq]
    obtain _ | _ | m := m
    · rfl
    · rfl
    · have hm : m ≤ 2 * bits.length := by simp only [List.length_cons] at h; omega
      have hdiv : (m + 1 + 1) / 2 = m / 2 + 1 := by omega
      have hmod : (m + 1 + 1) % 2 = m % 2 := Nat.add_mod_right m 2
      rw [hdiv, hmod, List.take_succ_cons, List.flatMap_cons, bitUnits_eq, List.append_assoc, ← ih hm]
      rfl

/-- Nothing or one mark: no space comes first, and it is one run at most. -/
theorem runs_replicate_stop (m : Nat) :
    ¬ headMark false (runs (List.replicate (m % 2) 0xA3#8)) ∧ (runs (List.replicate (m % 2) 0xA3#8)).length ≤ 1 := by
  obtain h | h := Nat.mod_two_eq_zero_or_one m <;> rw [h]
  · simp
  · exact ⟨not_headMark_of_headMark (headMark_stop_append []), by decide⟩

/-- A leader and m bytes of the pairs, not all of them: the complete pairs are counted (R189). -/
theorem necDecode_take_add (a c : Byte) {m : Nat} (h : m < 64) :
    necDecode Config.tol ((necEncode a c).take (8 + m)) = .err .truncated (.num (m / 2)) := by
  obtain ⟨hhead, hone⟩ := runs_replicate_stop m
  have hbits := length_frameBits a c
  have hlen := length_flatMap_bitRuns ((frameBits a c).take (m / 2))
  rw [take_necEncode_add, List.take_append_of_le_length (by rw [length_pairs]; omega),
    take_flatMap_bitUnits (by omega), necDecode_leader_pairs _ hhead, decodeFrame_of_lt]
  · rw [List.length_append, hlen, List.length_take_of_le (by omega)]
    congr 2
    omega
  · rw [List.length_append, hlen, List.length_take_of_le (by omega)]
    omega

/-- A cut within the leader leaves a short leader mark, or a good one and no pair (R189). -/
theorem necDecode_take_leaderUnits :
    (∀ n < 4, necDecode Config.tol (leaderUnits.take n) = .err .invalidLeader (.num 0)) ∧
    (∀ n < 8, 4 ≤ n → necDecode Config.tol (leaderUnits.take n) = .err .truncated (.num 0)) := by
  decide

/-- Behind the whole pairs nothing more is needed (R187, R189). -/
theorem necDecode_take_of_ge (a c : Byte) {n : Nat} (h : 72 ≤ n) :
    necDecode Config.tol ((necEncode a c).take n) = .ok (.frame a c) := by
  obtain ⟨m, rfl⟩ := Nat.exists_eq_add_of_le h
  have hstop : ¬ headMark false (runs ([0xA3#8].take m)) := by
    cases m with
    | zero => simp
    | succ m => exact not_headMark_of_headMark (headMark_stop_append (List.take m []))
  rw [Nat.add_assoc 8 64 m, take_necEncode_add, ← length_pairs a c, List.take_length_add_append,
    necDecode_leader_pairs _ hstop, decodeFrame_flatMap_bitRuns]

end Sys2Proof.Machine

namespace Sys2Proof.Proofs

open Sys2Proof.Machine

/-- Settles O49: the runs of the frame's bytes are those of its leader and its bits, which read back, whatever
follows. -/
theorem decodeOfEncodedFrame : Obligations.DecodeOfEncodedFrame := fun a c _ _ =>
  ⟨necEncode a c, rfl, fun tail => replies_necDecode_iff.2 (necDecode_necEncode_append a c tail)⟩

/-- Settles O50: a cut within the leader, among the pairs, or behind them. -/
theorem truncatedFrameDecodesByLength : Obligations.TruncatedFrameDecodesByLength := by
  intro a c s s'
  obtain ⟨hshort, hlong⟩ := necDecode_take_leaderUnits
  refine ⟨necEncode a c, rfl, fun n => ?_⟩
  simp only [replies_necDecode_iff]
  refine ⟨fun h => ?mark, fun h h' => ?pairs, necDecode_take_of_ge a c⟩
  case mark => rw [take_necEncode_of_le a c (by omega), hshort n (by omega)]
  case pairs =>
    obtain hn | hn := Nat.lt_or_ge n 8
    · rw [take_necEncode_of_le a c hn.le, hlong n hn h, Nat.sub_eq_zero_of_le hn.le]
    · obtain ⟨m, rfl⟩ := Nat.exists_eq_add_of_le hn
      rw [necDecode_take_add a c (by omega), Nat.add_sub_cancel_left]

end Sys2Proof.Proofs
end

section
/-! PROOFS. Where the machine stops and what an error writes: every step goes on under R33's invariant, every operation
ends with one result, and an error changes no register but by the latch (R210, R213, R219, R220). -/

namespace Sys2Proof.Machine

/-! ## Where an operation stops (R210, R219; log 9) -/

/-- RASM_PUSH runs beyond RBUF only behind the bytes of a packet in progress: 56 bytes at offset 0 fit. -/
theorem Rasm.push_error {r : Report} {g : Rasm} {f : Fault} (h : g.push r = .error f) :
    f = .rbufRange ∧ g.st = .active ∧ 840 < g.len.toNat + payloadLen r := by
  obtain ⟨-, hg⟩ | ⟨-, -, hg⟩ | ⟨-, -, hg⟩ | ⟨e, -, -, -, hg⟩ | ⟨hl, hst, hv, hg⟩ := g.push_cases r <;> rw [hg] at h
  · cases h
  · cases h
  · cases h
  · cases h
  · obtain ⟨hhdr, -, -⟩ := Rasm.violation_none hv
    have hpay : payloadLen r ≤ 56 := payloadLen_le hhdr
    rw [Rasm.accept_eq, payload_length hl hhdr] at h
    split at h
    · cases h
    · next hroom =>
      cases h
      rcases hst with hst | hst
      · simp only [Rasm.storeAt, hst, if_true] at hroom
        omega
      · simp only [Rasm.storeAt, hst, reduceCtorEq, if_false] at hroom
        exact ⟨rfl, hst, by omega⟩

/-- RASM_TAKE runs beyond RBUF only where more than 840 bytes are held. -/
theorem Rasm.take_error {g : Rasm} {f : Fault} (h : g.take = .error f) :
    f = .rbufRange ∧ g.st = .complete ∧ 840 < g.len.toNat := by
  obtain ⟨-, hg⟩ | ⟨-, -, hg⟩ | ⟨hst, hlen, hg⟩ := g.take_cases <;> rw [hg] at h <;> cases h
  exact ⟨rfl, hst, hlen⟩

/-- An operation over the reassembly registers answers, or its registers fault. -/
theorem State.commit_cases (x : Except Fault (Rasm × Result)) (s : State) :
    (∃ t, s.commit x = .next t) ∨ ∃ f, x = .error f := by
  cases x with
  | ok y => exact .inl ⟨_, rfl⟩
  | error f => exact .inr ⟨f, rfl⟩

/-- Only RASM_PUSH and RASM_TAKE can stop: no other operation accesses the block's RBUF, and no batch faults. -/
theorem exec_answers_or_faults (i : Instr) (s : State) :
    (∃ t, exec i s = .next t) ∨
    (∃ r f, i = .rasmPush r ∧ s.rasm.push r = .error f) ∨
    (∃ f, i = .rasmTake ∧ s.rasm.take = .error f) := by
  obtain ⟨x, hx⟩ | ⟨rs, f, -, hf, -⟩ | rfl | ⟨r, rfl⟩ | rfl | rfl | rfl | rfl := exec_cases i
  · exact .inl ⟨_, hx s⟩
  · obtain ⟨e, info, h⟩ | ⟨g, -, -, -, h⟩ := batchResult_cases rs <;> cases hf.symm.trans h
  · exact .inl ⟨_, exec_reset s⟩
  · exact (s.commit_cases (s.rasm.push r)).imp_right fun ⟨f, hf⟩ => .inl ⟨r, f, rfl, hf⟩
  · exact (s.commit_cases s.rasm.take).imp_right fun ⟨f, hf⟩ => .inr ⟨f, rfl, hf⟩
  · exact .inl ⟨_, exec_rasmClear s⟩
  · exact .inl ⟨_, exec_seqNextPkt s⟩
  · exact .inl ⟨_, exec_seqNextCmd s⟩

/-- Under R33's invariant every operation answers: RASM_LEN leaves room for the next fragment, and a whole packet lies
within RBUF. -/
theorem exec_answers {s : State} (hs : s.Inv) (i : Instr) : ∃ t, exec i s = .next t := by
  obtain ⟨hregs, -⟩ := hs
  obtain h | ⟨r, f, -, hf⟩ | ⟨f, -, hf⟩ := exec_answers_or_faults i s
  · exact h
  · obtain ⟨g, x, hg⟩ := Rasm.push_answers hregs r
    cases hf.symm.trans hg
  · obtain ⟨-, hst, hlen⟩ := Rasm.take_error hf
    exact absurd (Rasm.len_le_of_complete hregs hst) (by omega)

/-! ## What an error writes (R110, R213) -/

/-- An error of RASM_PUSH leaves the registers as they are, or it is a violation and they are latched (R110). -/
theorem Rasm.push_err {r : Report} {g g' : Rasm} {e : ErrorKind} {info : Info}
    (h : g.push r = .ok (g', .err e info)) :
    g' = g ∨ (r.length = 61 ∧ (g.st = .idle ∨ g.st = .active) ∧ g.violation r = some e ∧
      info = .num (fragIdx r).toNat ∧ g' = g.latch e) := by
  obtain ⟨-, hg⟩ | ⟨-, -, hg⟩ | ⟨-, -, hg⟩ | ⟨e', hl, hst, hv, hg⟩ | ⟨-, -, -, hg⟩ := g.push_cases r <;> rw [hg] at h
  · cases h
    exact .inl rfl
  · cases h
    exact .inl rfl
  · cases h
    exact .inl rfl
  · cases h
    exact .inr ⟨hl, hst, hv, rfl, rfl⟩
  · rw [Rasm.accept_eq] at h
    split at h <;> cases h

/-- An error of RASM_TAKE leaves the registers as they are (R111). -/
theorem Rasm.take_err {g g' : Rasm} {e : ErrorKind} {info : Info} (h : g.take = .ok (g', .err e info)) : g' = g := by
  obtain ⟨-, hg⟩ | ⟨-, -, hg⟩ | ⟨-, -, hg⟩ := g.take_cases <;> rw [hg] at h <;> cases h
  rfl

/-- The result an answer appends is the answer. -/
theorem State.answer_results_inj {s u : State} {x y : Result} (hu : u.results = s.results)
    (h : (u.answer x).results = s.results ++ [y]) : x = y := by
  simpa [hu] using h

/-! ## An issue that overlaps the one before it (R220, log 5) -/

/-- Closing an issue leaves the overlapping one behind it next, and it is refused. -/
theorem step_endOnError_of_overlaps {u : State} {i j : Issue} {rest : List Issue} (hp : u.program = j :: rest)
    (hj : j.overlaps = true) : step (u.endOnError i) = .refused .concurrentIssue := by
  obtain ⟨rest', hp'⟩ := State.endOnError_head (i := i) hp hj
  exact step_of_overlaps hp' hj

end Sys2Proof.Machine

namespace Sys2Proof.Proofs

open Sys2Proof.Machine Sys2Proof.Claims

/-- Settles O10: issuing touches the program alone, so exec answers under the invariant; a rejected wire byte is read. -/
theorem stepNeverFaultsUnderInvariant : Obligations.StepNeverFaultsUnderInvariant := by
  intro s hs
  obtain ⟨-, he⟩ | hoverlap | ⟨i, rest, ins, -, -, -, he⟩ | ⟨i, rest, rej, -, -, -, he⟩ := step_cases s
  · exact .inl ⟨s, he⟩
  · exact .inr hoverlap
  · obtain ⟨t, ht⟩ := exec_answers (s := { s with program := rest }) hs ins
    exact .inl ⟨t.endOnError i, he.trans (congrArg (closeIssue i) ht)⟩
  · exact .inl ⟨_, he⟩

/-- Settles O11: the two operations that access RBUF are the only ones that can stop. -/
theorem noInstructionIsRefused : Obligations.NoInstructionIsRefused := by
  intro i s
  obtain h | ⟨r, f, rfl, hf⟩ | ⟨f, rfl, hf⟩ := exec_answers_or_faults i s
  · exact .inl h
  · obtain ⟨rfl, hst, hroom⟩ := Rasm.push_error hf
    exact .inr (.inl ⟨(exec_rasmPush r s).trans (congrArg s.commit hf), r, rfl, hst, hroom⟩)
  · obtain ⟨rfl, hst, hlen⟩ := Rasm.take_error hf
    exact .inr (.inr ⟨(exec_rasmTake s).trans (congrArg s.commit hf), rfl, hst, hlen⟩)

/-- Settles O12, by the cases of exec: each of them ends in one answer. -/
theorem operationsReturnExactlyOneResult : Obligations.OperationsReturnExactlyOneResult :=
  fun _ _ _ h => exec_results_program h

/-- Settles O13: the operations that write registers beside an answer answer Ok, but for RASM_PUSH, whose latch is the
one write of an error. -/
theorem errorsWriteOnlyTheLatch : Obligations.ErrorsWriteOnlyTheLatch := by
  intro i s t e info h hres
  obtain ⟨x, rfl⟩ | ⟨-, rfl⟩ | ⟨r, g, x, rfl, hg, rfl⟩ | ⟨g, x, -, hg, rfl⟩ | ⟨-, rfl⟩ | ⟨rfl, -⟩ |
    ⟨rfl, -⟩ := exec_next_cases h
  · obtain rfl := State.answer_results_inj rfl hres
    exact .inl rfl
  · cases State.answer_results_inj rfl hres
  · obtain rfl := State.answer_results_inj rfl hres
    obtain rfl | ⟨hl, hst, hv, rfl, rfl⟩ := Rasm.push_err hg
    · exact .inl rfl
    · exact .inr ⟨r, e.code, rfl, hst, hl, firstViolation_eq_some.2 ⟨hv, rfl⟩, rfl, rfl⟩
  · obtain rfl := State.answer_results_inj rfl hres
    obtain rfl := Rasm.take_err hg
    exact .inl rfl
  · cases State.answer_results_inj rfl hres
  · cases h
    cases State.answer_results_inj rfl hres
  · cases h
    cases State.answer_results_inj rfl hres

/-- Settles O57: the first operation leaves the program alone, and closing it, at an error too, keeps the overlapping
issue next. -/
theorem overlappingIssueIsRefusedNext : Obligations.OverlappingIssueIsRefusedNext := by
  intro s t i j rest hp hj h
  obtain ⟨hnil, -⟩ | ⟨i', rest', -, -, he⟩ | ⟨i', rest', ins, hp', -, -, he⟩ | ⟨i', rest', rej, hp', -, -, he⟩ :=
    step_cases s
  · cases hnil.symm.trans hp
  · cases he.symm.trans h
  · obtain ⟨rfl, rfl⟩ := List.cons.inj (hp'.symm.trans hp)
    obtain ⟨u, hu, rfl⟩ := closeIssue_next.1 (he.symm.trans h)
    obtain ⟨-, -, hprogram⟩ := exec_results_program hu
    exact step_endOnError_of_overlaps hprogram hj
  · obtain ⟨rfl, rfl⟩ := List.cons.inj (hp'.symm.trans hp)
    obtain ⟨u, hu, rfl⟩ := closeIssue_next.1 (he.symm.trans h)
    cases hu
    exact step_endOnError_of_overlaps rfl hj

end Sys2Proof.Proofs
end

section
/-! PROOFS. What RESET leaves behind, RBUF included, and what the two sequences issue from there (R240, R101, R140). -/

namespace Sys2Proof.Machine

/-- RESET leaves nothing written, so every byte of RBUF is a free value of the new era (R240, log 2). -/
@[simp] theorem Rasm.restart_byte (a : Nat) (g : Rasm) : g.restart.byte a = Config.rbufFree g.restart.era a :=
  Memory.read_of_unwritten (Memory.written_nil a)

@[simp] theorem seqNext_zero (top : Nat) : seqNext top 0 = 1 := by simp [seqNext]

/-- The packet sequence begins at 1 (R101). -/
theorem exec_seqNextPkt_of_zero {s : State} (h : s.pktSeq = 0#4) :
    exec .seqNextPkt s = .next ({ s with pktSeq := 1#4 }.answer (.ok (.u8 1#8))) := by
  simp [h]

/-- The command sequence begins at 1 (R140). -/
theorem exec_seqNextCmd_of_zero {s : State} (h : s.cmdSeq = 0#7) :
    exec .seqNextCmd s = .next ({ s with cmdSeq := 1#7 }.answer (.ok (.u8 1#8))) := by
  simp [h]

end Sys2Proof.Machine

namespace Sys2Proof.Proofs

open Sys2Proof.Machine Sys2Proof.Claims

/-- Settles O7: RESET's next state is given whole by `exec_reset`; its registers and RBUF are those of `Rasm.restart`, and
both sequences go on from 0. -/
theorem resetRestoresRegisters : Obligations.ResetRestoresRegisters := by
  refine ⟨fun _ => rfl, fun s => ⟨_, exec_reset s, rfl, rfl, rfl, rfl, rfl, rfl, rfl, rfl, fun a => ?rbuf, rfl, rfl,
    ?pkt, ?cmd⟩⟩
  case rbuf => exact s.rasm.restart_byte a
  case pkt => exact ⟨_, exec_seqNextPkt_of_zero rfl, rfl⟩
  case cmd => exact ⟨_, exec_seqNextCmd_of_zero rfl, rfl⟩

end Sys2Proof.Proofs
end
